-- ==== Sys2Proof/Word.lean ====
section
/-! DEFINITION. The word types of the core (spec/00_scope.md R6, R8; spec/10_state.md R13). -/

namespace Sys2Proof

/-- A register, pc, ALU or instruction value: 32 bits (R6 XLEN and ILEN, R8). -/
abbrev Word := BitVec 32

/-- One addressable unit of memory: 8 bits (R32). -/
abbrev Byte := BitVec 8

/-- The index of a general register, 0 to 31; every index a 5-bit field can name is valid (R13). -/
abbrev Reg := Fin 32

end Sys2Proof
end

