-- ==== Sys2Proof/Syntax.lean ====
section
/-! DEFINITION. The instructions: one constructor per row of spec/opcode_table.json, in its order. -/

namespace Sys2Proof

/-- The 23 rows of the opcode table: the 21 instructions (R2) and the two catch-all rows (R63). A constructor carries every
bit of its word that the row leaves open, also those no meaning reads (log entry 5), so that decoding loses nothing. -/
inductive Instr where
  /- R layout, spec/42_r_type.md -/
  | add (rd rs1 rs2 : Reg)
  | sub (rd rs1 rs2 : Reg)
  | xor (rd rs1 rs2 : Reg)
  | or (rd rs1 rs2 : Reg)
  | and (rd rs1 rs2 : Reg)
  | sll (rd rs1 rs2 : Reg)
  | srl (rd rs1 rs2 : Reg)
  | sra (rd rs1 rs2 : Reg)
  | slt (rd rs1 rs2 : Reg)
  | sltu (rd rs1 rs2 : Reg)
  /- I layout, spec/43_i_type.md; `imm` is the raw field w[31:20], `immHi` is w[31:25], `shamt` is w[24:20] -/
  | addi (rd rs1 : Reg) (imm : BitVec 12)
  | xori (rd rs1 : Reg) (imm : BitVec 12)
  | ori (rd rs1 : Reg) (imm : BitVec 12)
  | andi (rd rs1 : Reg) (imm : BitVec 12)
  | slli (rd rs1 : Reg) (immHi : BitVec 7) (shamt : BitVec 5)
  | srli (rd rs1 : Reg) (shamt : BitVec 5)
  | srai (rd rs1 : Reg) (immHi : BitVec 7) (shamt : BitVec 5)
  | slti (rd rs1 : Reg) (imm : BitVec 12)
  | sltiu (rd rs1 : Reg) (imm : BitVec 12)
  /- U layout, spec/44_u_type.md; `imm20` is the raw field w[31:12] -/
  | lui (rd : Reg) (imm20 : BitVec 20)
  /- System layout, spec/45_system.md; `unexamined` is w[31:7], which no meaning reads (R56, R127) -/
  | ecall (unexamined : BitVec 25)
  /- the two "otherwise" rows, spec/46_unimplemented.md; the raw word is the payload of the diagnostic -/
  | unimpFunct (word : Word)
  | unimpOpcode (word : Word)
  deriving DecidableEq, Repr

end Sys2Proof
end

