-- ==== Sys2Proof/WellFormed.lean ====
section
/-! DEFINITION. Which terms of Instr stand for a word of the hardware (spec/30_encoding.md R60 to R64). -/

namespace Sys2Proof

/-- The ten (funct3, funct7) pairs opcode 0110011 implements (R61). -/
def implementedPairs : List (BitVec 3 × BitVec 7) :=
  [(0b000, 0b0000000), (0b000, 0b0100000), (0b100, 0b0000000), (0b110, 0b0000000), (0b111, 0b0000000),
   (0b001, 0b0000000), (0b101, 0b0000000), (0b101, 0b0100000), (0b010, 0b0000000), (0b011, 0b0000000)]

/-- The four major opcodes the decoder recognises (R60). -/
def recognisedOpcodes : List (BitVec 7) := [0b0110011, 0b0010011, 0b0110111, 0b1110011]

/-- SRAI has w[31:25] not all zero (R121; with all zero the word is SRLI), `unimpFunct` holds a word of opcode 0110011 whose
pair is not implemented (R143), `unimpOpcode` a word whose opcode is not recognised (R142); every other term is the
instruction of some word. -/
def Instr.wellFormed : Instr → Bool
  | .srai _ _ immHi _ => immHi != 0
  | .unimpFunct w =>
    w.extractLsb 6 0 == 0b0110011#7 && !implementedPairs.contains (w.extractLsb 14 12, w.extractLsb 31 25)
  | .unimpOpcode w => !recognisedOpcodes.contains (w.extractLsb 6 0)
  | .add _ _ _ | .sub _ _ _ | .xor _ _ _ | .or _ _ _ | .and _ _ _
  | .sll _ _ _ | .srl _ _ _ | .sra _ _ _ | .slt _ _ _ | .sltu _ _ _ => true
  | .addi _ _ _ | .xori _ _ _ | .ori _ _ _ | .andi _ _ _ => true
  | .slli _ _ _ _ | .srli _ _ _ => true
  | .slti _ _ _ | .sltiu _ _ _ => true
  | .lui _ _ | .ecall _ => true

end Sys2Proof
end

