-- ==== Sys2Proof/Decode.lean ====
section
/-! DEFINITION. The bit-field codec, the decoder, the dispatcher and the encoder (spec/30_encoding.md,
spec/40_codec_decoder.md), and the opcode table with its matching order. -/

namespace Sys2Proof

/-! ## The bit-field codec and the byte order -/

/-- `extract_bits(word, high, low)`, written w[high:low] (R7, R69). DESIGN CHOICE (log entry 21): the precondition of R70 is an
argument, as R70 allows and U12 asks, so that a call outside it cannot be written and no value is assumed there. -/
def extractBits (word : Word) (high low : Nat) (_range : low ≤ high ∧ high ≤ 31 := by decide) : BitVec (high - low + 1) :=
  word.extractLsb high low

/-- `sign_extend(value, width)`: the low `width` bits of `value` as a two's-complement number of full width (R71). DESIGN CHOICE
(log entry 21): the precondition of R72 is an argument, as U12 asks, so that no value is assumed outside it. -/
def signExtendBits (value : Word) (width : Nat) (_range : 1 ≤ width ∧ width ≤ 32 := by decide) : Word :=
  (value.setWidth width).signExtend 32

/-- The number that bytes in address order hold, the lowest address least significant (R35, R36). -/
def packLE : List Byte → Nat
  | [] => 0
  | b :: bs => b.toNat + 256 * packLE bs

/-- The `n` low bytes of a number in address order, least significant first (R35, R37). -/
def unpackLE : Nat → Nat → List Byte
  | 0, _ => []
  | n + 1, v => BitVec.ofNat 8 v :: unpackLE n (v / 256)

/-- A register index from its 5-bit field (R13). -/
def regOfBits (b : BitVec 5) : Reg := ⟨b.toNat, b.isLt⟩

/-- The 5-bit field of a register index (R13). -/
def regBits (r : Reg) : BitVec 5 := BitVec.ofNat 5 r.val

/-! ## The decoder -/

/-- The layout tag (R74, R76). No opcode yields an S layout (R55, conflict C1). -/
inductive Layout where
  | r
  | i
  | u
  | system
  | unknown
  deriving DecidableEq, Repr

/-- The decoded instruction: the raw word, the layout tag and every field (R74). -/
structure Descriptor where
  word   : Word
  layout : Layout
  opcode : BitVec 7
  rd     : Reg
  funct3 : BitVec 3
  rs1    : Reg
  rs2    : Reg
  funct7 : BitVec 7
  imm12  : BitVec 12
  immI   : Word
  imm20  : BitVec 20
  immU   : Word
  deriving DecidableEq, Repr

/-- The layout is a function of the opcode alone (R60, R76). -/
def layoutOf (opcode : BitVec 7) : Layout :=
  if opcode = 0b0110011 then .r
  else if opcode = 0b0010011 then .i
  else if opcode = 0b0110111 then .u
  else if opcode = 0b1110011 then .system
  else .unknown

/-- The I-type immediate as a number: the 12-bit field sign-extended to 32 bits (R57, R75). -/
def immIOf (imm12 : BitVec 12) : Word := signExtendBits (imm12.setWidth 32) 12

/-- The U-type immediate as used: the 20-bit field shifted left by 12 (R59, R75). -/
def immUOf (imm20 : BitVec 20) : Word := imm20.setWidth 32 <<< 12

/-- The decoder: every field by explicit bit extraction, total and pure (R75, R78). -/
def describe (w : Word) : Descriptor where
  word   := w
  layout := layoutOf (extractBits w 6 0)
  opcode := extractBits w 6 0
  rd     := regOfBits (extractBits w 11 7)
  funct3 := extractBits w 14 12
  rs1    := regOfBits (extractBits w 19 15)
  rs2    := regOfBits (extractBits w 24 20)
  funct7 := extractBits w 31 25
  imm12  := extractBits w 31 20
  immI   := immIOf (extractBits w 31 20)
  imm20  := extractBits w 31 12
  immU   := immUOf (extractBits w 31 12)

/-! ## The dispatcher -/

/-- The operations the dispatcher selects from (R80). -/
inductive Op where
  | add | sub | xor | or | and | sll | srl | sra | slt | sltu
  | addi | xori | ori | andi | slli | srli | srai | slti | sltiu
  | lui | ecall | unimpFunct | unimpOpcode
  deriving DecidableEq, Repr

/-- Opcode 0110011: the operation of a (funct3, funct7) pair (R61, R80). -/
def dispatchR (funct3 : BitVec 3) (funct7 : BitVec 7) : Op :=
  if funct7 = 0b0000000 then
    if funct3 = 0b000 then .add
    else if funct3 = 0b100 then .xor
    else if funct3 = 0b110 then .or
    else if funct3 = 0b111 then .and
    else if funct3 = 0b001 then .sll
    else if funct3 = 0b101 then .srl
    else if funct3 = 0b010 then .slt
    else .sltu
  else if funct7 = 0b0100000 then
    if funct3 = 0b000 then .sub
    else if funct3 = 0b101 then .sra
    else .unimpFunct
  else .unimpFunct

/-- Opcode 0010011: the operation of funct3 and, for funct3 = 101 only, of imm[11:5] = w[31:25] (R62, R80, R81). -/
def dispatchI (funct3 : BitVec 3) (immHi : BitVec 7) : Op :=
  if funct3 = 0b000 then .addi
  else if funct3 = 0b100 then .xori
  else if funct3 = 0b110 then .ori
  else if funct3 = 0b111 then .andi
  else if funct3 = 0b001 then .slli
  else if funct3 = 0b101 then (if immHi = 0b0000000 then .srli else .srai)
  else if funct3 = 0b010 then .slti
  else .sltiu

/-- The dispatcher: exactly one operation for every descriptor (R80). -/
def dispatch (d : Descriptor) : Op :=
  match d.layout with
  | .r => dispatchR d.funct3 d.funct7
  | .i => dispatchI d.funct3 (d.imm12.extractLsb 11 5)
  | .u => .lui
  | .system => .ecall
  | .unknown => .unimpOpcode

/-- The instruction of an operation, with the operand fields its layout gives it (R79, R82). -/
def Op.instr (op : Op) (d : Descriptor) : Instr :=
  match op with
  | .add => .add d.rd d.rs1 d.rs2
  | .sub => .sub d.rd d.rs1 d.rs2
  | .xor => .xor d.rd d.rs1 d.rs2
  | .or => .or d.rd d.rs1 d.rs2
  | .and => .and d.rd d.rs1 d.rs2
  | .sll => .sll d.rd d.rs1 d.rs2
  | .srl => .srl d.rd d.rs1 d.rs2
  | .sra => .sra d.rd d.rs1 d.rs2
  | .slt => .slt d.rd d.rs1 d.rs2
  | .sltu => .sltu d.rd d.rs1 d.rs2
  | .addi => .addi d.rd d.rs1 d.imm12
  | .xori => .xori d.rd d.rs1 d.imm12
  | .ori => .ori d.rd d.rs1 d.imm12
  | .andi => .andi d.rd d.rs1 d.imm12
  | .slli => .slli d.rd d.rs1 (d.imm12.extractLsb 11 5) (d.imm12.extractLsb 4 0)
  | .srli => .srli d.rd d.rs1 (d.imm12.extractLsb 4 0)
  | .srai => .srai d.rd d.rs1 (d.imm12.extractLsb 11 5) (d.imm12.extractLsb 4 0)
  | .slti => .slti d.rd d.rs1 d.imm12
  | .sltiu => .sltiu d.rd d.rs1 d.imm12
  | .lui => .lui d.rd d.imm20
  | .ecall => .ecall (extractBits d.word 31 7)
  | .unimpFunct => .unimpFunct d.word
  | .unimpOpcode => .unimpOpcode d.word

/-- The instruction of a word: decode, then dispatch (R89 actions 2 and 3). Total: every word is one of the 23 rows (R64). -/
def decode (w : Word) : Instr := (dispatch (describe w)).instr (describe w)

/-- Why bytes decode to no instruction: only because there are fewer than four (R50: every instruction is one 32-bit word). -/
inductive DecodeError where
  | truncated
  deriving DecidableEq, Repr

/-- Decoding a list of bytes in address order: the first instruction and the rest of the list (R35, R50). -/
def decodeBytes : List Byte → Except DecodeError (Instr × List Byte)
  | b0 :: b1 :: b2 :: b3 :: rest => .ok (decode (BitVec.ofNat 32 (packLE [b0, b1, b2, b3])), rest)
  | _ => .error .truncated

/-! ## The encoder -/

/-- The R layout (R52). -/
def encodeR (funct7 : BitVec 7) (rs2 rs1 : Reg) (funct3 : BitVec 3) (rd : Reg) : Word :=
  funct7 ++ regBits rs2 ++ regBits rs1 ++ funct3 ++ regBits rd ++ 0b0110011#7

/-- The I layout (R53). -/
def encodeI (imm12 : BitVec 12) (rs1 : Reg) (funct3 : BitVec 3) (rd : Reg) : Word :=
  imm12 ++ regBits rs1 ++ funct3 ++ regBits rd ++ 0b0010011#7

/-- The word of an instruction, from the field values of R61 and R62 and the layouts of R52, R53, R54 and R56. -/
def encode : Instr → Word
  | .add rd rs1 rs2 => encodeR 0b0000000 rs2 rs1 0b000 rd
  | .sub rd rs1 rs2 => encodeR 0b0100000 rs2 rs1 0b000 rd
  | .xor rd rs1 rs2 => encodeR 0b0000000 rs2 rs1 0b100 rd
  | .or rd rs1 rs2 => encodeR 0b0000000 rs2 rs1 0b110 rd
  | .and rd rs1 rs2 => encodeR 0b0000000 rs2 rs1 0b111 rd
  | .sll rd rs1 rs2 => encodeR 0b0000000 rs2 rs1 0b001 rd
  | .srl rd rs1 rs2 => encodeR 0b0000000 rs2 rs1 0b101 rd
  | .sra rd rs1 rs2 => encodeR 0b0100000 rs2 rs1 0b101 rd
  | .slt rd rs1 rs2 => encodeR 0b0000000 rs2 rs1 0b010 rd
  | .sltu rd rs1 rs2 => encodeR 0b0000000 rs2 rs1 0b011 rd
  | .addi rd rs1 imm => encodeI imm rs1 0b000 rd
  | .xori rd rs1 imm => encodeI imm rs1 0b100 rd
  | .ori rd rs1 imm => encodeI imm rs1 0b110 rd
  | .andi rd rs1 imm => encodeI imm rs1 0b111 rd
  | .slli rd rs1 immHi shamt => encodeI (immHi ++ shamt) rs1 0b001 rd
  | .srli rd rs1 shamt => encodeI (0b0000000#7 ++ shamt) rs1 0b101 rd
  | .srai rd rs1 immHi shamt => encodeI (immHi ++ shamt) rs1 0b101 rd
  | .slti rd rs1 imm => encodeI imm rs1 0b010 rd
  | .sltiu rd rs1 imm => encodeI imm rs1 0b011 rd
  | .lui rd imm20 => imm20 ++ regBits rd ++ 0b0110111#7
  | .ecall unexamined => unexamined ++ 0b1110011#7
  | .unimpFunct w => w
  | .unimpOpcode w => w

/-- The four bytes of an instruction in address order (R35, R50). -/
def encodeBytes (i : Instr) : List Byte := unpackLE 4 (encode i).toNat

/-! ## The opcode table and its matching order -/

/-- One row of the opcode table: a word `w` fits it when `w & mask = match` (R63). -/
structure TableRow where
  op       : Op
  mtch     : Word
  mask     : Word
  priority : Nat
  deriving DecidableEq, Repr

/-- `w & mask = match` (R63). -/
def TableRow.fits (row : TableRow) (w : Word) : Bool := w &&& row.mask == row.mtch

/-- The rows of opcode 0110011 (R61; masks of R102). -/
def tableR : List TableRow :=
  [⟨.add, 0x00000033, 0xFE00707F, 1⟩, ⟨.sub, 0x40000033, 0xFE00707F, 1⟩, ⟨.xor, 0x00004033, 0xFE00707F, 1⟩,
   ⟨.or, 0x00006033, 0xFE00707F, 1⟩, ⟨.and, 0x00007033, 0xFE00707F, 1⟩, ⟨.sll, 0x00001033, 0xFE00707F, 1⟩,
   ⟨.srl, 0x00005033, 0xFE00707F, 1⟩, ⟨.sra, 0x40005033, 0xFE00707F, 1⟩, ⟨.slt, 0x00002033, 0xFE00707F, 1⟩,
   ⟨.sltu, 0x00003033, 0xFE00707F, 1⟩]

/-- The rows of opcode 0010011 (R62; masks of R114, conflict C12). -/
def tableI : List TableRow :=
  [⟨.addi, 0x00000013, 0x0000707F, 1⟩, ⟨.xori, 0x00004013, 0x0000707F, 1⟩, ⟨.ori, 0x00006013, 0x0000707F, 1⟩,
   ⟨.andi, 0x00007013, 0x0000707F, 1⟩, ⟨.slli, 0x00001013, 0x0000707F, 1⟩, ⟨.srli, 0x00005013, 0xFE00707F, 1⟩,
   ⟨.srai, 0x00005013, 0x0000707F, 2⟩, ⟨.slti, 0x00002013, 0x0000707F, 1⟩, ⟨.sltiu, 0x00003013, 0x0000707F, 1⟩]

/-- The rows of LUI (R125) and ECALL (R127) and the two catch-all rows (R63). -/
def tableOther : List TableRow :=
  [⟨.lui, 0x00000037, 0x0000007F, 1⟩, ⟨.ecall, 0x00000073, 0x0000007F, 1⟩,
   ⟨.unimpFunct, 0x00000033, 0x0000007F, 2⟩, ⟨.unimpOpcode, 0x00000000, 0x00000000, 3⟩]

/-- spec/opcode_table.json: operation, match, mask and priority of each of its 23 rows, in its order. -/
def opcodeTable : List TableRow := tableR ++ tableI ++ tableOther

/-- A row of the given priority that the word fits. -/
def fittingRow (priority : Nat) (w : Word) : Option TableRow :=
  opcodeTable.find? fun row => row.priority == priority && row.fits w

/-- The row a decoder takes: the fitting row with the smallest priority number (R63). -/
def selectRow (w : Word) : Option TableRow := fittingRow 1 w <|> fittingRow 2 w <|> fittingRow 3 w

/-! ## What the host asks of the decoder -/

/-- The instruction this decoder reads from the opcode-table word `w` of `nbits` bits: the word is laid out in memory order and
given to `decodeBytes`; bits above `nbits` are zero. -/
def decodeTableWord (nbits w : Nat) : Option Instr :=
  match decodeBytes (unpackLE 4 (w % 2 ^ nbits)) with
  | .ok (i, _) => some i
  | .error _ => none

end Sys2Proof
end

