-- ==== Sys2Proof/Config.lean ====
section
/-! DEFINITION. The implementation parameters of spec/00_scope.md R6 and the free values of the model.
IMAGE and IMAGE_LEN, the two parameters a launch sets, are fields of State (log entry 1). -/

namespace Sys2Proof.Config

/-- MEM_SIZE: the size of the memory buffer in bytes, 1 MiB (R6, R32; decision D23; DEDUCED, log entry 17). -/
def memSize : Nat := 0x100000

/-- RESET_PC: the pc at reset and the load offset of the image (R6, R18, R163). -/
def resetPc : Word := 0

/-- SYSCALL_NUM_REG: the register that holds the system-call number, a7 = x17 (R6, R128; decision D3; log entry 8). -/
def syscallNumReg : Reg := 17

/-- SYSCALL_ARG_REG: the register that holds the system-call argument, a0 = x10 (R6, R128; decision D3; PRESUMED, log entry 8). -/
def syscallArgReg : Reg := 10

/-- The two readings of SLTIU's immediate (R123, conflict C2). -/
inductive SltiuImmMode where
  | sext
  | zext
  deriving DecidableEq, Repr

/-- SLTIU_IMM_MODE: how SLTIU widens its immediate; the spec's default (R6, R123; decision D2; DEDUCED, log entry 10). -/
def sltiuImmMode : SltiuImmMode := .sext

/-- FLOAT_SRC_SIGNED: whether a formatter of system call 2 takes its word as signed. The spec leaves it open with no
default and no core state or event depends on it (R6, R131; decision D13; DESIGN CHOICE, log entry 11): a free value, with no body. -/
opaque floatSrcSigned : Bool

/-- The exit code of a core that halted with the string fault, which the spec leaves unspecified (R22, R95, R149; U3): a
free value, with no body, applied to the counter State.freeDraws (DESIGN CHOICE, log entry 3). -/
opaque stringFaultExitCode : Nat → Word

end Sys2Proof.Config
end

