-- ==== Sys2Proof/Machine/State.lean ====
section
/-! DEFINITION. The state of the core as plain data (spec/10_state.md, spec/20_memory.md), the reasons a step can stop, and
the state after reset. -/

namespace Sys2Proof.Machine

/-- The two states of the sequencer (R20, R88). -/
inductive RunState where
  | running
  | halted
  deriving DecidableEq, Repr

/-- Why the core halted (R22, R148, R149); the spec's value `None` is Option's none. -/
inductive HaltCause where
  | exitCall10
  | exitCall93
  | endOfImage
  | stringFault
  deriving DecidableEq, Repr

/-- What a system call hands to the output collaborator: a kind and a payload (R24, R141). -/
inductive Emission where
  | int (v : Word)
  | float (v : Word)
  | str (bytes : List Byte)
  | char (b : Byte)
  | hex (v : Word)
  | bin (v : Word)
  | uint (v : Word)
  deriving DecidableEq, Repr

/-- The diagnostics (R24, R150): the instruction word or string address, and the address of the instruction. -/
inductive Diagnostic where
  | unimplementedOpcode (word pc : Word)
  | unimplementedFunct (word pc : Word)
  | stringOutOfRange (addr pc : Word)
  deriving DecidableEq, Repr

/-- An event of the trace (R24; decisions D8, D9; log entry 18). -/
inductive Event where
  | emit (e : Emission)
  | diag (d : Diagnostic)
  deriving DecidableEq, Repr

/-- Memory as the list of its bytes other than zero, addresses strictly rising; an unlisted address reads as zero, the spec's
reset content (R32, R33). The canonical form is `Memory.wf` in Machine/Ops.lean (log entry 12). -/
abbrev Memory := List Host.Cell

/-- The state of the core (R20, R30). -/
structure State where
  /-- the 32 general registers `x[0]` to `x[31]` (R13) -/
  regs      : Vector Word 32
  /-- the program counter, a byte offset into memory (R18) -/
  pc        : Word
  /-- RUNNING or HALTED (R20) -/
  runState  : RunState
  /-- the guest's exit code (R21) -/
  exitCode  : Word
  /-- why the core halted; none while it runs (R22) -/
  haltCause : Option HaltCause
  /-- the events since reset, oldest first (R24) -/
  trace     : List Event
  /-- the memory attached to the core, which it only reads (R27, R34) -/
  mem       : Memory
  /-- IMAGE_LEN, the byte length of the loaded image: the spec's launch parameter, which no step changes (R6, R28; log entry 1) -/
  imageLen  : Nat
  /-- the MODEL'S own counter of free values drawn, no state of the spec (log entry 3) -/
  freeDraws : Nat
  deriving DecidableEq, Repr

/-- Why a step stops with no next state. No instruction's meaning raises one. -/
inductive Fault where
  /-- raised by `step` alone: a HALTED core performs no step and has no successor (R97, decision D11; log entry 6). Safe. -/
  | coreHalted
  /-- raised by `step` alone: the fetch at the pc is not wholly inside memory. The spec shows it cannot happen (R38); it is
  reachable only from states no launch leads to (log entry 7). Safe. -/
  | fetchOutOfRange
  deriving DecidableEq, Repr

/-- Why the model refuses. No instruction's meaning raises one. -/
inductive Refusal where
  /-- an arm of `exec` whose instruction has no meaning yet; no arm of this model answers so. Safe. -/
  | notModelled (mnemonic : String)
  /-- raised by `State.launch` alone: an image of no bytes never reaches the core (R164, decision D12; log entry 16). Safe. -/
  | imageEmpty
  /-- raised by `State.launch` alone: an image longer than MEM_SIZE is no valid launch (R164, decision D12; U10; log entry 16). Safe. -/
  | imageTooLong
  deriving DecidableEq, Repr

/-- The machine right after reset with nothing loaded (R30, R161; log entry 9): every register 0, pc 0, RUNNING, exit code 0, no halt cause,
an empty trace, all of memory zero. IMAGE_LEN has no default in the spec: here it is MEM_SIZE, its upper bound (log entry 1). -/
def State.reset : State where
  regs      := Vector.replicate 32 0
  pc        := Config.resetPc
  runState  := .running
  exitCode  := 0
  haltCause := none
  trace     := []
  mem       := []
  imageLen  := Config.memSize
  freeDraws := 0

end Sys2Proof.Machine
end

