-- ==== Sys2Proof/Machine/Ops.lean ====
section
/-! DEFINITION. The named operations over registers, memory and the run state that every meaning is written with
(spec/10_state.md, spec/20_memory.md, spec/41_sequencer.md). The core takes no trap (spec/60_exceptions.md R145): what another
machine does by taking an exception it does by recording an event (`State.record`) and, where the rule says so, by halting
(`State.finish`); there is no return operation (R154). -/

namespace Sys2Proof.Machine

/-! ## Memory -/

/-- What an address no cell lists reads as: memory is zero-initialized (R33). -/
def unlistedByte : Byte := 0

/-- The byte of memory at an address. -/
def Memory.read : Memory → Nat → Byte
  | [], _ => unlistedByte
  | (k, b) :: rest, a => if k = a then b else Memory.read rest a

/-- Memory with one byte replaced, in canonical form again. Only the host's loading uses it: the core never writes (R34). -/
def Memory.set : Memory → Nat → Byte → Memory
  | [], a, b => if b = unlistedByte then [] else [(a, b)]
  | (k, c) :: rest, a, b =>
    if a < k then (if b = unlistedByte then (k, c) :: rest else (a, b) :: (k, c) :: rest)
    else if a = k then (if b = unlistedByte then rest else (a, b) :: rest)
    else (k, c) :: Memory.set rest a b

/-- Canonical from address `lo` on: addresses strictly rising from `lo`, below MEM_SIZE, and no byte an unlisted address reads as. -/
def Memory.wfFrom : Nat → Memory → Bool
  | _, [] => true
  | lo, (a, b) :: rest => decide (lo ≤ a) && decide (a < Config.memSize) && (b != unlistedByte) && Memory.wfFrom (a + 1) rest

/-- The canonical form of memory: equal contents are equal lists. -/
def Memory.wf (m : Memory) : Bool := m.wfFrom 0

/-- The `n` bytes from address `a` upward. -/
def Memory.bytes (m : Memory) : Nat → Nat → List Byte
  | _, 0 => []
  | a, n + 1 => m.read a :: m.bytes (a + 1) n

/-- `MemRead(addr, n)`: the n-byte little-endian value, or none where the read is out of range (R36, R42). Addresses are not
reduced modulo MEM_SIZE (R32). -/
def memRead (m : Memory) (addr n : Nat) : Option Nat :=
  if addr + n ≤ Config.memSize then some (packLE (m.bytes addr n)) else none

/-- Memory with a list of bytes placed from address `a` upward. -/
def Memory.place (m : Memory) : Nat → List Byte → Memory
  | _, [] => m
  | a, b :: bs => (m.set a b).place (a + 1) bs

/-- `MemWrite(addr, n, v)` (R37): no rule of the hardware writes memory; the model's loading of a word uses it. -/
def memWrite (m : Memory) (addr n v : Nat) : Option Memory :=
  if addr + n ≤ Config.memSize then some (m.place addr (unpackLE n v)) else none

/-- The bytes of the string that starts at `p`, without its terminator, looked for in the next `fuel` addresses; none if there is
no zero byte among them (the loop of R132). -/
def stringFrom (m : Memory) : Nat → Nat → Option (List Byte)
  | _, 0 => none
  | p, fuel + 1 => if m.read p = 0 then some [] else (stringFrom m (p + 1) fuel).map (m.read p :: ·)

/-- The null-terminated string at address `a`, or none where the read leaves memory before a zero byte (R132, R42;
decision D5; log entry 14). -/
def readString (m : Memory) (a : Word) : Option (List Byte) := stringFrom m a.toNat (Config.memSize - a.toNat)

/-! ## Registers -/

/-- A read of general register `r`: register 0 reads as 0 at all times (R15, R102 (f); DEDUCED, log entry 4). -/
def State.readReg (s : State) (r : Reg) : Word := if r = 0 then 0 else s.regs[r]

/-- The write-back of `v` to `x[r]`; a write to `x[0]` is performed and then undone by `normalise` (R9, R15). -/
def State.writeReg (s : State) (r : Reg) (v : Word) : State := { s with regs := s.regs.set r.val v r.isLt }

/-! ## Events -/

/-- Append an event to the trace (R9 `emit` and `raise`, R24, R146). -/
def State.record (s : State) (e : Event) : State := { s with trace := s.trace ++ [e] }

/-! ## The sequencer's actions 4, 5 and 6 -/

/-- How an operation ends (R98, R129): it continues, it terminates the run with a cause and a code, or it faults. -/
inductive OpEnd where
  | continues
  | exits (cause : HaltCause) (code : Word)
  | faults
  deriving DecidableEq, Repr

/-- Action 4: force register 0 to zero, whatever the operation was (R93). -/
def State.normalise (s : State) : State := { s with regs := s.regs.set 0 0 }

/-- `halt(cause, code)` (R95). -/
def State.halt (s : State) (cause : HaltCause) (code : Word) : State :=
  { s with runState := .halted, haltCause := some cause, exitCode := code }

/-- `halt(StringFault, _)`: the exit code is unspecified, a free value (R95, R149; log entry 3). -/
def State.haltFault (s : State) : State :=
  { s.halt .stringFault (Config.stringFaultExitCode s.freeDraws) with freeDraws := s.freeDraws + 1 }

/-- Action 5 where the operation did not terminate: the pc advances by 4 (R94). -/
def State.advance (s : State) : State := { s with pc := s.pc + 4 }

/-- Action 6: the core halts with code 0 when the pc has reached the end of the image (R96; decision D1; log
entry 13). -/
def State.checkEnd (s : State) : State := if s.imageLen ≤ s.pc.toNat then s.halt .endOfImage 0 else s

/-- Actions 4 to 6 after an operation that ends as `e` (R94, R98): a termination or fault leaves the pc and skips action 6. -/
def State.finish (s : State) (e : OpEnd) : State :=
  match e with
  | .continues => s.normalise.advance.checkEnd
  | .exits cause code => s.normalise.halt cause code
  | .faults => s.normalise.haltFault

/-- What every computational instruction does with its result: write it back and go on (R98). -/
def writeBack (rd : Reg) (v : Word) (s : State) : Host.Outcome State Fault Refusal :=
  .next ((s.writeReg rd v).finish .continues)

/-! ## Fetch -/

/-- Action 1: the 4-byte little-endian word at the pc (R90); none where it is not wholly inside memory. -/
def State.fetch (s : State) : Option Word := (memRead s.mem s.pc.toNat 4).map (BitVec.ofNat 32)

end Sys2Proof.Machine
end

