-- ==== Sys2Proof/Machine/Flags.lean ====
section
/-! DEFINITION. The core has no flags, no condition codes and no predicate registers (spec/10_state.md R23): the comparison
instructions write their truth value, 0 or 1, into a register. This file holds those truth values. -/

namespace Sys2Proof.Machine

/-- The word 1 or the word 0 (R23, R111). -/
def truthWord (b : Bool) : Word := if b then 1 else 0

/-- `a <s b`: the signed comparison (R8, R9). -/
def ltSigned (a b : Word) : Bool := decide (a.toInt < b.toInt)

/-- `a <u b`: the unsigned comparison (R8, R9). -/
def ltUnsigned (a b : Word) : Bool := decide (a.toNat < b.toNat)

end Sys2Proof.Machine
end

