-- ==== Sys2Proof/Machine/Operands.lean ====
section
/-! DEFINITION. The operand forms of spec/40_codec_decoder.md R82 and R84: a register, the sign-extended I immediate, SLTIU's
immediate, a shift amount, the U immediate, and the two registers of the system call. -/

namespace Sys2Proof.Machine

/-- The I-type immediate as a number: `imm_i = sext_12(w[31:20])` (R57). -/
def immOperand (imm : BitVec 12) : Word := immIOf imm

/-- SLTIU's second operand under either reading of its immediate (R123). -/
def sltiuOperand (mode : Config.SltiuImmMode) (imm : BitVec 12) : Word :=
  match mode with
  | .sext => immIOf imm
  | .zext => imm.setWidth 32

/-- The shift-immediate operand: `imm12 & 0x1F`, the 5-bit field w[24:20] (R58). -/
def shamtOperand (shamt : BitVec 5) : Word := shamt.setWidth 32

/-- The U-type immediate as used: `imm_u = imm20 << 12` (R59). -/
def upperOperand (imm20 : BitVec 20) : Word := immUOf imm20

/-- The amount of a shift: the low 5 bits of the operand, 0 to 31 (R83, R113). -/
def shiftAmount (b : Word) : Nat := (b &&& 0x1F).toNat

/-- The system-call number `n = x[17]`, all 32 bits (R128; decisions D3 and D15). -/
def State.syscallNum (s : State) : Word := s.readReg Config.syscallNumReg

/-- The system-call argument `a = x[10]` (R128; decision D3). -/
def State.syscallArg (s : State) : Word := s.readReg Config.syscallArgReg

end Sys2Proof.Machine
end

