-- ==== Sys2Proof/Machine/Alu.lean ====
section
/-! DEFINITION. The ALU of spec/40_codec_decoder.md R83. -/

namespace Sys2Proof.Machine

/-- The ALU functions (R83). -/
inductive AluOp where
  | add | sub | xor | or | and | sll | srl | sra | slt | sltu | passB
  deriving DecidableEq, Repr

/-- `alu(op, a, b)` (R83): addition and subtraction wrap silently, the shifts mask their second operand to 5 bits. -/
def alu (op : AluOp) (a b : Word) : Word :=
  match op with
  | .add => a + b
  | .sub => a - b
  | .xor => a ^^^ b
  | .or => a ||| b
  | .and => a &&& b
  | .sll => a <<< shiftAmount b
  | .srl => a >>> shiftAmount b
  | .sra => a.sshiftRight (shiftAmount b)
  | .slt => truthWord (ltSigned a b)
  | .sltu => truthWord (ltUnsigned a b)
  | .passB => b

end Sys2Proof.Machine
end

