-- ==== Sys2Proof/Machine/IType.lean ====
section
/-! DEFINITION. The meanings of the nine register-immediate instructions (spec/43_i_type.md). `x[rs1]` is read before the
write-back (R92, R114 (a)); the result goes to `x[rd]` and the step continues (R114 (d)). -/

namespace Sys2Proof.Machine

/-- ADDI: `x[rd] <- x[rs1] + imm_i` (R115). -/
def execAddi (rd rs1 : Reg) (imm : BitVec 12) (s : State) : Host.Outcome State Fault Refusal :=
  writeBack rd (alu .add (s.readReg rs1) (immOperand imm)) s

/-- XORI: `x[rd] <- x[rs1] ^ imm_i` (R116). -/
def execXori (rd rs1 : Reg) (imm : BitVec 12) (s : State) : Host.Outcome State Fault Refusal :=
  writeBack rd (alu .xor (s.readReg rs1) (immOperand imm)) s

/-- ORI: `x[rd] <- x[rs1] | imm_i` (R117). -/
def execOri (rd rs1 : Reg) (imm : BitVec 12) (s : State) : Host.Outcome State Fault Refusal :=
  writeBack rd (alu .or (s.readReg rs1) (immOperand imm)) s

/-- ANDI: `x[rd] <- x[rs1] & imm_i` (R118). -/
def execAndi (rd rs1 : Reg) (imm : BitVec 12) (s : State) : Host.Outcome State Fault Refusal :=
  writeBack rd (alu .and (s.readReg rs1) (immOperand imm)) s

/-- SLLI: `x[rd] <- x[rs1] << (imm12 & 0x1F)`; the bits w[31:25] are not examined (R119). -/
def execSlli (rd rs1 : Reg) (_immHi : BitVec 7) (shamt : BitVec 5) (s : State) : Host.Outcome State Fault Refusal :=
  writeBack rd (alu .sll (s.readReg rs1) (shamtOperand shamt)) s

/-- SRLI: `x[rd] <- x[rs1] >>u (imm12 & 0x1F)` (R120). -/
def execSrli (rd rs1 : Reg) (shamt : BitVec 5) (s : State) : Host.Outcome State Fault Refusal :=
  writeBack rd (alu .srl (s.readReg rs1) (shamtOperand shamt)) s

/-- SRAI: `x[rd] <- x[rs1] >>s (imm12 & 0x1F)`; which non-zero value w[31:25] has makes no difference (R121, conflict C4). -/
def execSrai (rd rs1 : Reg) (_immHi : BitVec 7) (shamt : BitVec 5) (s : State) : Host.Outcome State Fault Refusal :=
  writeBack rd (alu .sra (s.readReg rs1) (shamtOperand shamt)) s

/-- SLTI: `x[rd] <- 1 if x[rs1] <s imm_i else 0` (R122). -/
def execSlti (rd rs1 : Reg) (imm : BitVec 12) (s : State) : Host.Outcome State Fault Refusal :=
  writeBack rd (alu .slt (s.readReg rs1) (immOperand imm)) s

/-- SLTIU under a given SLTIU_IMM_MODE: `x[rd] <- 1 if x[rs1] <u sltiu_operand else 0` (R123). -/
def execSltiuIn (mode : Config.SltiuImmMode) (rd rs1 : Reg) (imm : BitVec 12) (s : State) :
    Host.Outcome State Fault Refusal :=
  writeBack rd (alu .sltu (s.readReg rs1) (sltiuOperand mode imm)) s

/-- SLTIU in the mode of the configuration, by default `sext` (R123; decision D2, conflict C2). -/
def execSltiu (rd rs1 : Reg) (imm : BitVec 12) (s : State) : Host.Outcome State Fault Refusal :=
  execSltiuIn Config.sltiuImmMode rd rs1 imm s

end Sys2Proof.Machine
end

