-- ==== Sys2Proof/Machine/RType.lean ====
section
/-! DEFINITION. The meanings of the ten register-register instructions (spec/42_r_type.md). Both sources are read before the
write-back (R92, R102 (a)); the result goes to `x[rd]` and the step continues (R102 (d)). -/

namespace Sys2Proof.Machine

/-- ADD: `x[rd] <- x[rs1] + x[rs2]` (R103). -/
def execAdd (rd rs1 rs2 : Reg) (s : State) : Host.Outcome State Fault Refusal :=
  writeBack rd (alu .add (s.readReg rs1) (s.readReg rs2)) s

/-- SUB: `x[rd] <- x[rs1] - x[rs2]` (R104). -/
def execSub (rd rs1 rs2 : Reg) (s : State) : Host.Outcome State Fault Refusal :=
  writeBack rd (alu .sub (s.readReg rs1) (s.readReg rs2)) s

/-- XOR: `x[rd] <- x[rs1] ^ x[rs2]` (R105). -/
def execXor (rd rs1 rs2 : Reg) (s : State) : Host.Outcome State Fault Refusal :=
  writeBack rd (alu .xor (s.readReg rs1) (s.readReg rs2)) s

/-- OR: `x[rd] <- x[rs1] | x[rs2]` (R106). -/
def execOr (rd rs1 rs2 : Reg) (s : State) : Host.Outcome State Fault Refusal :=
  writeBack rd (alu .or (s.readReg rs1) (s.readReg rs2)) s

/-- AND: `x[rd] <- x[rs1] & x[rs2]` (R107). -/
def execAnd (rd rs1 rs2 : Reg) (s : State) : Host.Outcome State Fault Refusal :=
  writeBack rd (alu .and (s.readReg rs1) (s.readReg rs2)) s

/-- SLL: `x[rd] <- x[rs1] << (x[rs2] & 0x1F)` (R108). -/
def execSll (rd rs1 rs2 : Reg) (s : State) : Host.Outcome State Fault Refusal :=
  writeBack rd (alu .sll (s.readReg rs1) (s.readReg rs2)) s

/-- SRL: `x[rd] <- x[rs1] >>u (x[rs2] & 0x1F)` (R109). -/
def execSrl (rd rs1 rs2 : Reg) (s : State) : Host.Outcome State Fault Refusal :=
  writeBack rd (alu .srl (s.readReg rs1) (s.readReg rs2)) s

/-- SRA: `x[rd] <- x[rs1] >>s (x[rs2] & 0x1F)` (R110). -/
def execSra (rd rs1 rs2 : Reg) (s : State) : Host.Outcome State Fault Refusal :=
  writeBack rd (alu .sra (s.readReg rs1) (s.readReg rs2)) s

/-- SLT: `x[rd] <- 1 if x[rs1] <s x[rs2] else 0` (R111). -/
def execSlt (rd rs1 rs2 : Reg) (s : State) : Host.Outcome State Fault Refusal :=
  writeBack rd (alu .slt (s.readReg rs1) (s.readReg rs2)) s

/-- SLTU: `x[rd] <- 1 if x[rs1] <u x[rs2] else 0` (R112). -/
def execSltu (rd rs1 rs2 : Reg) (s : State) : Host.Outcome State Fault Refusal :=
  writeBack rd (alu .sltu (s.readReg rs1) (s.readReg rs2)) s

end Sys2Proof.Machine
end

