-- ==== Sys2Proof/Machine/System.lean ====
section
/-! DEFINITION. The system call and the syscall dispatch logic (spec/45_system.md). -/

namespace Sys2Proof.Machine

/-- The services of the system call (the table of R129). -/
inductive Service where
  | printInt
  | printFloat
  | printString
  | exit
  | printChar
  | printHex
  | printBin
  | printUInt
  | exitWithCode
  | unknown
  deriving DecidableEq, Repr

/-- The service of a call number; the whole 32-bit value is compared (R128, R129). -/
def serviceOf (n : Word) : Service :=
  if n = 1 then .printInt
  else if n = 2 then .printFloat
  else if n = 4 then .printString
  else if n = 10 then .exit
  else if n = 11 then .printChar
  else if n = 34 then .printHex
  else if n = 35 then .printBin
  else if n = 36 then .printUInt
  else if n = 93 then .exitWithCode
  else .unknown

/-- Call 4, print string (R132): the bytes before the first zero byte as one event, or, where the read would leave memory, the
diagnostic and the fault. -/
def printString (mem : Memory) (pc a : Word) : Option Event × OpEnd :=
  match readString mem a with
  | some bytes => (some (.emit (.str bytes)), .continues)
  | none => (some (.diag (.stringOutOfRange a pc)), .faults)

/-- `syscall(n, a)`: the event a service appends, if any, and how it ends (R129 to R139). -/
def syscall (mem : Memory) (pc n a : Word) : Option Event × OpEnd :=
  match serviceOf n with
  | .printInt => (some (.emit (.int a)), .continues)
  | .printFloat => (some (.emit (.float a)), .continues)
  | .printString => printString mem pc a
  | .exit => (none, .exits .exitCall10 0)
  | .printChar => (some (.emit (.char (extractBits a 7 0))), .continues)
  | .printHex => (some (.emit (.hex a)), .continues)
  | .printBin => (some (.emit (.bin a)), .continues)
  | .printUInt => (some (.emit (.uint a)), .continues)
  | .exitWithCode => (none, .exits .exitCall93 a)
  | .unknown => (none, .continues)

/-- Append the event, where there is one. -/
def State.recordOpt (s : State) (e : Option Event) : State :=
  match e with
  | some e => s.record e
  | none => s

/-- ECALL: `syscall(x[17], x[10])`, with the bits w[31:7] not examined (R127, R128); it writes no register (R140). -/
def execEcall (_unexamined : BitVec 25) (s : State) : Host.Outcome State Fault Refusal :=
  let r := syscall s.mem s.pc s.syscallNum s.syscallArg
  .next ((s.recordOpt r.1).finish r.2)

end Sys2Proof.Machine
end

