-- ==== Sys2Proof/Machine/UType.lean ====
section
/-! DEFINITION. The meaning of LUI (spec/44_u_type.md). -/

namespace Sys2Proof.Machine

/-- LUI: `x[rd] <- imm_u`; it reads no register, and its first ALU operand is unused (R125, R84). -/
def execLui (rd : Reg) (imm20 : BitVec 20) (s : State) : Host.Outcome State Fault Refusal :=
  writeBack rd (alu .passB 0 (upperOperand imm20)) s

end Sys2Proof.Machine
end

