-- ==== Sys2Proof/Machine/Unimplemented.lean ====
section
/-! DEFINITION. The meanings of the words that are not one of the 21 instructions (spec/46_unimplemented.md): reported, skipped,
never a trap (R64, R144). -/

namespace Sys2Proof.Machine

/-- An unimplemented function: the diagnostic with the word and its address, no register written, the pc advances (R143). -/
def execUnimpFunct (word : Word) (s : State) : Host.Outcome State Fault Refusal :=
  .next ((s.record (.diag (.unimplementedFunct word s.pc))).finish .continues)

/-- An unimplemented opcode: the diagnostic with the word and its address, no register written, the pc advances (R142). -/
def execUnimpOpcode (word : Word) (s : State) : Host.Outcome State Fault Refusal :=
  .next ((s.record (.diag (.unimplementedOpcode word s.pc))).finish .continues)

end Sys2Proof.Machine
end

