-- ==== Sys2Proof/Machine/Step.lean ====
section
/-! DEFINITION. The step function (spec/41_sequencer.md R89, R98) and the placing of a word where it fetches. -/

namespace Sys2Proof.Machine

/-- One step: a HALTED core has no successor (R97); a RUNNING one fetches the word at the pc, decodes it and executes it, where
`exec` performs actions 3 to 6 (R89, R98). -/
def step (s : State) : Host.Outcome State Fault Refusal :=
  match s.runState with
  | .halted => .fault .coreHalted
  | .running =>
    match s.fetch with
    | none => .fault .fetchOutOfRange
    | some w => exec (decode w) s

/-- `s` with the opcode-table word `w` of `nbits` bits as the instruction the next step fetches: its four bytes stand at the pc,
the core runs, and IMAGE_LEN covers the word. It stands for the host's loading (R164; log entry 2). Where the four bytes at
the pc are not inside memory nothing can be placed and the step still stops on the fetch. -/
def State.withFetchWord (s : State) (nbits w : Nat) : State :=
  { s with
    mem := (memWrite s.mem s.pc.toNat 4 (w % 2 ^ nbits)).getD s.mem
    imageLen := max s.imageLen (s.pc.toNat + 4)
    runState := .running
    haltCause := none }

end Sys2Proof.Machine
end

