-- ==== Sys2Proof/Machine/Assembler.lean ====
section
/-! DEFINITION. The assembly forms of spec/30_encoding.md R68 and the instructions an assembler makes of them. A line is its
mnemonic and operands; spelling (capitals, aliases of R14) is left out (log entry 19). -/

namespace Sys2Proof.Machine

/-- A line of assembly by its form (R68): destination first. `word` is the `.word` the spec uses for a raw 32-bit value. -/
inductive AsmLine where
  | rType (mnemonic : Op) (rd rs1 rs2 : Reg)
  | iArith (mnemonic : Op) (rd rs1 : Reg) (imm : Int)
  | iShift (mnemonic : Op) (rd rs1 : Reg) (shamt : Nat)
  | lui (rd : Reg) (imm20 : Nat)
  | ecall
  | word (value : Nat)
  deriving DecidableEq, Repr

/-- The R-type lines: one for each of the ten mnemonics. -/
def assembleR (mnemonic : Op) (rd rs1 rs2 : Reg) : Option Instr :=
  match mnemonic with
  | .add => some (.add rd rs1 rs2)
  | .sub => some (.sub rd rs1 rs2)
  | .xor => some (.xor rd rs1 rs2)
  | .or => some (.or rd rs1 rs2)
  | .and => some (.and rd rs1 rs2)
  | .sll => some (.sll rd rs1 rs2)
  | .srl => some (.srl rd rs1 rs2)
  | .sra => some (.sra rd rs1 rs2)
  | .slt => some (.slt rd rs1 rs2)
  | .sltu => some (.sltu rd rs1 rs2)
  | _ => none

/-- The I-type arithmetic lines: the immediate is placed as its 12-bit two's-complement pattern. -/
def assembleI (mnemonic : Op) (rd rs1 : Reg) (imm : BitVec 12) : Option Instr :=
  match mnemonic with
  | .addi => some (.addi rd rs1 imm)
  | .xori => some (.xori rd rs1 imm)
  | .ori => some (.ori rd rs1 imm)
  | .andi => some (.andi rd rs1 imm)
  | .slti => some (.slti rd rs1 imm)
  | .sltiu => some (.sltiu rd rs1 imm)
  | _ => none

/-- The I-type shift lines: w[31:25] is 0000000 for SLLI and SRLI and 0100000 for SRAI. -/
def assembleShift (mnemonic : Op) (rd rs1 : Reg) (shamt : BitVec 5) : Option Instr :=
  match mnemonic with
  | .slli => some (.slli rd rs1 0b0000000 shamt)
  | .srli => some (.srli rd rs1 shamt)
  | .srai => some (.srai rd rs1 0b0100000 shamt)
  | _ => none

/-- The instruction of a line, none where the mnemonic does not take the form or an operand is out of its range (R68). -/
def assemble : AsmLine → Option Instr
  | .rType m rd rs1 rs2 => assembleR m rd rs1 rs2
  | .iArith m rd rs1 imm => if -2048 ≤ imm ∧ imm ≤ 2047 then assembleI m rd rs1 (BitVec.ofInt 12 imm) else none
  | .iShift m rd rs1 shamt => if shamt < 32 then assembleShift m rd rs1 (BitVec.ofNat 5 shamt) else none
  | .lui rd imm20 => if imm20 < 2 ^ 20 then some (.lui rd (BitVec.ofNat 20 imm20)) else none
  | .ecall => some (.ecall 0)
  | .word value => if value < 2 ^ 32 then some (decode (BitVec.ofNat 32 value)) else none

end Sys2Proof.Machine
end

