-- ==== Sys2Proof/Machine/Datapath.lean ====
section
/-! DEFINITION. The step seen from the hardware side: the control signals, the operand routing and the step function over the
decoder's descriptor, as spec/40_codec_decoder.md R82 to R84 and spec/41_sequencer.md R98 write them. `exec` is the model;
this file is the second description that the equivalence statements compare it with. -/

namespace Sys2Proof.Machine

/-- The control signals of an operation (R82): which of its register fields it reads and whether it writes `x[rd]`. -/
structure Controls where
  readsRs1 : Bool
  readsRs2 : Bool
  writesRd : Bool
  deriving DecidableEq, Repr

/-- The table of control signals (R82). -/
def controls : Op → Controls
  | .add | .sub | .xor | .or | .and | .sll | .srl | .sra | .slt | .sltu => ⟨true, true, true⟩
  | .addi | .xori | .ori | .andi | .slli | .srli | .srai | .slti | .sltiu => ⟨true, false, true⟩
  | .lui => ⟨false, false, true⟩
  | .ecall | .unimpFunct | .unimpOpcode => ⟨false, false, false⟩

/-- The ALU function of an operation, none for the three that use no ALU (R83). -/
def aluOpOf : Op → Option AluOp
  | .add | .addi => some .add
  | .sub => some .sub
  | .xor | .xori => some .xor
  | .or | .ori => some .or
  | .and | .andi => some .and
  | .sll | .slli => some .sll
  | .srl | .srli => some .srl
  | .sra | .srai => some .sra
  | .slt | .slti => some .slt
  | .sltu | .sltiu => some .sltu
  | .lui => some .passB
  | .ecall | .unimpFunct | .unimpOpcode => none

/-- The second ALU operand: `x[rs2]`, `imm_i` whole (the shifts mask it themselves), SLTIU's operand, or `imm_u` (R82, R84, R98). -/
def operandB (op : Op) (d : Descriptor) (b : Word) : Word :=
  match op with
  | .add | .sub | .xor | .or | .and | .sll | .srl | .sra | .slt | .sltu => b
  | .addi | .xori | .ori | .andi | .slli | .srli | .srai | .slti => d.immI
  | .sltiu => sltiuOperand Config.sltiuImmMode d.imm12
  | .lui => d.immU
  | .ecall | .unimpFunct | .unimpOpcode => 0

/-- A read port of the register file under its control signal (R82, R86); where the signal is off the port drives 0, which no
operand uses. -/
def readPort (reads : Bool) (s : State) (r : Reg) : Word := if reads then s.readReg r else 0

/-- The write port of the register file: `x[rd]` is written exactly where the control signal `writesRd` is on (R82, R84, R86). -/
def writePort (writesRd : Bool) (rd : Reg) (v : Word) (s : State) : State := if writesRd then s.writeReg rd v else s

/-- The result on its way to the write port (R83, R84): the ALU's; the three operations without an ALU function write none. -/
def aluResult (op : Op) (d : Descriptor) (s : State) : Word :=
  match aluOpOf op with
  | some f =>
    alu f (readPort (controls op).readsRs1 s d.rs1) (operandB op d (readPort (controls op).readsRs2 s d.rs2))
  | none => 0

/-- What an operation does beside the write-back: its event, if any, and how it ends (R82 "other effect", R98). -/
def sideEffect (op : Op) (d : Descriptor) (s : State) : Option Event × OpEnd :=
  match op with
  | .add | .sub | .xor | .or | .and | .sll | .srl | .sra | .slt | .sltu => (none, .continues)
  | .addi | .xori | .ori | .andi | .slli | .srli | .srai | .slti | .sltiu => (none, .continues)
  | .lui => (none, .continues)
  | .ecall => syscall s.mem s.pc s.syscallNum s.syscallArg
  | .unimpFunct => (some (.diag (.unimplementedFunct d.word s.pc)), .continues)
  | .unimpOpcode => (some (.diag (.unimplementedOpcode d.word s.pc)), .continues)

/-- Action 3 of the step on the fetched word: the state after the operation, and how the operation ends (R92, R98). Registers are
read and written as the control signals of the dispatched operation say; all reads see the state before the write. -/
def operate (s : State) (d : Descriptor) : State × OpEnd :=
  let op := dispatch d
  let e := sideEffect op d s
  ((writePort (controls op).writesRd d.rd (aluResult op d s) s).recordOpt e.1, e.2)

/-- The step function of R98 after the fetch of `w`. -/
def datapathStep (s : State) (w : Word) : State :=
  let r := operate s (describe w)
  r.1.finish r.2

end Sys2Proof.Machine
end

