-- ==== Sys2Proof/Machine/Launch.lean ====
section
/-! DEFINITION. What the host does before a run (spec/70_reset_and_hazards.md R161, R164, R166, R169): load the image, optionally
preload registers, release reset. -/

namespace Sys2Proof.Machine

/-- Zeroed memory with an image copied in from address `a` on, in canonical form (R33). -/
def Memory.ofImage : Nat → List Byte → Memory
  | _, [] => []
  | a, b :: bs => if b = unlistedByte then Memory.ofImage (a + 1) bs else (a, b) :: Memory.ofImage (a + 1) bs

/-- The launch state of an image with preloaded registers: the reset state with memory and IMAGE_LEN of the image and `x[1..31]`
as given, `x[0] = 0` (R164, R169). An empty or oversize image is refused (decision D12; U10; log entry 16). -/
def State.launch (image : List Byte) (preload : Vector Word 32) : Except Refusal State :=
  if image = [] then .error .imageEmpty
  else if Config.memSize < image.length then .error .imageTooLong
  else .ok { State.reset with
    regs := preload.set 0 0, mem := Memory.ofImage 0 image, imageLen := image.length }

/-- The launch state of a plain run: every register zero (R169). -/
def State.load (image : List Byte) : Except Refusal State := State.launch image State.reset.regs

/-- The reset input: the state of R30 in every field that is the core's; it neither loads nor clears memory (R161). The model's
counter of free values goes on counting (log entry 15). -/
def State.assertReset (s : State) : State :=
  { State.reset with mem := s.mem, imageLen := s.imageLen, freeDraws := s.freeDraws }

end Sys2Proof.Machine
end

