-- ==== Sys2Proof/Machine/Output.lean ====
section
/-! DEFINITION. What the outside reads from the core: the number an emitted payload stands for (spec/10_state.md R24,
spec/45_system.md R130 to R137) and the digits of the result dump (spec/70_reset_and_hazards.md R167). Turning either into
characters is work outside the core (spec/00_scope.md R4 (b); log entry 19). -/

namespace Sys2Proof.Machine

/-- The integer that system call 2 converts numerically, under either value of FLOAT_SRC_SIGNED (R131). -/
def floatSource (signed : Bool) (v : Word) : Int := if signed then v.toInt else v.toNat

/-- The number a collaborator shows for an emission: signed for call 1 (R130), the numeric conversion's source for call 2
(R131), unsigned for calls 34, 35 and 36 (R135, R136, R137); strings and characters are bytes and show no number. -/
def Emission.number : Emission → Option Int
  | .int v => some v.toInt
  | .float v => some (floatSource Config.floatSrcSigned v)
  | .hex v | .bin v | .uint v => some v.toNat
  | .str _ | .char _ => none

/-- The eight hexadecimal digits of a word, most significant first (R167). -/
def hexDigits (v : Word) : List (BitVec 4) :=
  [v.extractLsb 31 28, v.extractLsb 27 24, v.extractLsb 23 20, v.extractLsb 19 16,
   v.extractLsb 15 12, v.extractLsb 11 8, v.extractLsb 7 4, v.extractLsb 3 0]

/-- The digits of the text form of the result dump, `x[0]` first, each register most significant byte first (R167). Which
characters show the digits (their case) and the newline are the host's. -/
def State.dumpDigits (s : State) : List (BitVec 4) := (List.finRange 32).flatMap fun r => hexDigits (s.readReg r)

end Sys2Proof.Machine
end

