-- ==== Sys2Proof/Safety.lean ====
section
/-! DEFINITION. What counts as a legal state and a clean end, and the terms the statements are written in. -/

namespace Sys2Proof

/-- The register and immediate fields of a word under the names of R75. -/
def rdOf (w : Word) : Reg := regOfBits (extractBits w 11 7)

@[inherit_doc rdOf] def rs1Of (w : Word) : Reg := regOfBits (extractBits w 19 15)

@[inherit_doc rdOf] def rs2Of (w : Word) : Reg := regOfBits (extractBits w 24 20)

@[inherit_doc rdOf] def immOf (w : Word) : BitVec 12 := extractBits w 31 20

@[inherit_doc rdOf] def immHiOf (w : Word) : BitVec 7 := extractBits w 31 25

@[inherit_doc rdOf] def shamtOf (w : Word) : BitVec 5 := extractBits w 24 20

/-- The words whose bits under `mask` are `mtch` decode to the instruction with these operands: what a table row of priority 1 says
(R63). -/
def DecodesAs (mask mtch : Word) (f : Word → Instr) : Prop := ∀ w, w &&& mask = mtch → decode w = f w

end Sys2Proof

namespace Sys2Proof.Machine

/-- The invariant of every step boundary (R31), with the bounds of R6 and R19 on IMAGE_LEN and the pc and the canonical form of
memory. -/
structure State.Inv (s : State) : Prop where
  /-- (a) register 0 holds 0 -/
  x0_zero : s.regs[(0 : Reg)] = 0
  /-- (b) the pc is a multiple of 4 -/
  pc_aligned : s.pc.toNat % 4 = 0
  /-- the pc is at most MEM_SIZE (R19) -/
  pc_bounded : s.pc.toNat ≤ Config.memSize
  /-- (c) a running core's pc is inside the image -/
  running_in_image : s.runState = .running → s.pc.toNat < s.imageLen
  /-- (d) a halted core has a halt cause -/
  halted_has_cause : s.runState = .halted → s.haltCause ≠ none
  /-- a running core has no halt cause (R22) -/
  running_no_cause : s.runState = .running → s.haltCause = none
  /-- 1 <= IMAGE_LEN <= MEM_SIZE (R6) -/
  image_nonempty : 1 ≤ s.imageLen
  image_fits : s.imageLen ≤ Config.memSize
  /-- memory is in canonical form -/
  mem_wf : s.mem.wf = true

/-- A clean end of a run: HALTED by an exit call or at the end of the image (R100, R148). -/
def State.cleanEnd (s : State) : Bool :=
  s.runState == .halted &&
    (s.haltCause == some .exitCall10 || s.haltCause == some .exitCall93 || s.haltCause == some .endOfImage)

/-- A fault state: HALTED by the string fault (R22, R149). -/
def State.faulted (s : State) : Bool := s.runState == .halted && s.haltCause == some .stringFault

/-- What no operation touches: memory, byte for byte and as a whole, and IMAGE_LEN (R28, R34). -/
def SameImage (s t : State) : Prop :=
  (∀ a, t.mem.read a = s.mem.read a) ∧ t.mem = s.mem ∧ t.imageLen = s.imageLen

/-- Registers after a step that writes `v` to `x[rd]`: where `rd` is 0 the result is discarded; register 0 holds 0 whatever it
held before (R15, R93); every other register is unchanged. -/
def WritesOnly (rd : Reg) (v : Word) (s t : State) : Prop :=
  (rd ≠ 0 → t.readReg rd = v) ∧ (∀ r, r ≠ rd → t.readReg r = s.readReg r) ∧ t.readReg 0 = 0 ∧ t.regs[(0 : Reg)] = 0

/-- Registers after a step that writes none (R140, R144). -/
def WritesNone (s t : State) : Prop := (∀ r, t.readReg r = s.readReg r) ∧ t.regs[(0 : Reg)] = 0

/-- The run state, halt cause and exit code are as they were (R20 to R22). -/
def SameRun (s t : State) : Prop := t.runState = s.runState ∧ t.haltCause = s.haltCause ∧ t.exitCode = s.exitCode

/-- The core has halted with a cause and a code (R95). -/
def HaltedWith (cause : HaltCause) (code : Word) (t : State) : Prop :=
  t.runState = .halted ∧ t.haltCause = some cause ∧ t.exitCode = code

/-- The advance of a step that continues (R94): the pc has advanced by 4; short of the end of the image the core runs on as before;
memory is unchanged and no free value is drawn. What happens at the end of the image is `ChecksEnd`. -/
def Advances (s t : State) : Prop :=
  t.pc = s.pc + 4 ∧ ((s.pc + 4).toNat < s.imageLen → SameRun s t) ∧ SameImage s t ∧ t.freeDraws = s.freeDraws

/-- The check that follows the advance (R96, the spec's decision D1): once the pc has reached IMAGE_LEN the core halts with
code 0. -/
def ChecksEnd (s t : State) : Prop := s.imageLen ≤ (s.pc + 4).toNat → HaltedWith .endOfImage 0 t

/-- A step that continues: it advances and checks the end of the image (R94, R96). -/
def GoesOn (s t : State) : Prop := Advances s t ∧ ChecksEnd s t

/-- A step that computes `v` into `x[rd]` and advances: the template of R102 and R114, with no trace event. -/
def Computes (rd : Reg) (v : Word) (s t : State) : Prop := WritesOnly rd v s t ∧ t.trace = s.trace ∧ Advances s t

/-- A step that appends the events `es` to the trace, writes no register and advances. -/
def Reports (es : List Event) (s t : State) : Prop := WritesNone s t ∧ t.trace = s.trace ++ es ∧ Advances s t

/-- A step that ends the run by an exit call: the pc stays at the ECALL, no event, no register written (R94, R133, R138). -/
def Exits (cause : HaltCause) (code : Word) (s t : State) : Prop :=
  WritesNone s t ∧ t.trace = s.trace ∧ t.pc = s.pc ∧ HaltedWith cause code t ∧ SameImage s t ∧ t.freeDraws = s.freeDraws

end Sys2Proof.Machine
end

