-- ==== Sys2Proof/Certificates/Slice0/Obligations.lean ====
section
/-! DEFINITION. The statements for the provers. -/

open Sys2Proof Sys2Proof.Machine

/-! ## Encoding: codec, decoder, dispatcher, encoder -/

/-- R69: `extract_bits` is a shift and a mask. -/
def Obligations.ExtractBitsIsShiftAndMask : Prop :=
  ∀ (w : Word) (high low : Nat) (range : low ≤ high ∧ high ≤ 31),
    (extractBits w high low range).toNat = (w.toNat >>> low) &&& (2 ^ (high - low + 1) - 1)

/-- R71: `sign_extend` reads the low `width` bits as a two's-complement number and ignores the others. -/
def Obligations.SignExtendReadsLowBitsAsSigned : Prop :=
  ∀ (v : Word) (width : Nat) (range : 1 ≤ width ∧ width ≤ 32),
    (signExtendBits v width range).toInt =
      if v.toNat % 2 ^ width < 2 ^ (width - 1) then (v.toNat % 2 ^ width : Int) else (v.toNat % 2 ^ width : Int) - 2 ^ width

/-- R73: placing a signed 12-bit number in the immediate field and decoding it gives the number back. -/
def Obligations.SignedImmediateRoundTrips : Prop :=
  ∀ v : Int, -2048 ≤ v → v ≤ 2047 →
    (signExtendBits ((extractBits (BitVec.ofInt 32 (v % 2 ^ 12)) 11 0).setWidth 32) 12).toInt = v

/-- R74, R75, R76: all twelve fields of the descriptor: the raw word, the layout by the opcode, every bit field as a quotient and a
remainder of the word, the two derived immediates; and the two identities, which are the spec's own derivation. -/
def Obligations.DescriptorHoldsEveryField : Prop :=
  ∀ w : Word,
    (describe w).word = w ∧
    (describe w).layout = (if w.toNat % 2 ^ 7 = 0b0110011 then .r else if w.toNat % 2 ^ 7 = 0b0010011 then .i
      else if w.toNat % 2 ^ 7 = 0b0110111 then .u else if w.toNat % 2 ^ 7 = 0b1110011 then .system else .unknown) ∧
    (describe w).opcode.toNat = w.toNat % 2 ^ 7 ∧
    (describe w).rd.val = w.toNat / 2 ^ 7 % 2 ^ 5 ∧
    (describe w).funct3.toNat = w.toNat / 2 ^ 12 % 2 ^ 3 ∧
    (describe w).rs1.val = w.toNat / 2 ^ 15 % 2 ^ 5 ∧
    (describe w).rs2.val = w.toNat / 2 ^ 20 % 2 ^ 5 ∧
    (describe w).funct7.toNat = w.toNat / 2 ^ 25 ∧
    (describe w).imm12.toNat = w.toNat / 2 ^ 20 ∧
    (describe w).immI.toInt = (if w.toNat / 2 ^ 20 < 2048 then (w.toNat / 2 ^ 20 : Int) else (w.toNat / 2 ^ 20 : Int) - 4096) ∧
    (describe w).imm20.toNat = w.toNat / 2 ^ 12 ∧
    (describe w).immU = w &&& 0xFFFFF000 ∧
    (describe w).imm12.toNat = (describe w).funct7.toNat * 32 + (describe w).rs2.val ∧
    (describe w).imm20.toNat = (describe w).imm12.toNat * 256 + (describe w).rs1.val * 8 + (describe w).funct3.toNat

/-- R63: no word fits two rows of priority 1, and the fitting row of the opcode table with the smallest priority number, which every
word has, is the operation the dispatcher selects. -/
def Obligations.TableAndDispatcherAgree : Prop :=
  ∀ w : Word, (selectRow w).map (·.op) = some (dispatch (describe w)) ∧
    ∀ p ∈ opcodeTable, ∀ q ∈ opcodeTable, p.priority = 1 → q.priority = 1 → p.fits w = true → q.fits w = true → p = q

/-- Decode after encode, for every well-formed instruction with every operand at every value its field admits. -/
def Obligations.DecodeOfEncodeIsIdentity : Prop :=
  ∀ i : Instr, i.wellFormed = true →
    decode (encode i) = i ∧ ∀ rest, decodeBytes (encodeBytes i ++ rest) = .ok (i, rest)

/-- Encode after decode: every word decodes to a well-formed instruction (R64, R78), and encoding that gives the word back. The second
clause is the model's choice (DESIGN CHOICE, log entry 5): `ecall`, `slli` and `srai` carry the bits no meaning reads. -/
def Obligations.EncodeOfDecodeIsIdentity : Prop :=
  ∀ w : Word, (decode w).wellFormed = true ∧ encode (decode w) = w

/-- R35, R36: four bytes in address order are one little-endian instruction word; fewer than four are none. -/
def Obligations.InstructionWordsAreLittleEndian : Prop :=
  (∀ (b0 b1 b2 b3 : Byte) (rest : List Byte),
    decodeBytes (b0 :: b1 :: b2 :: b3 :: rest) = .ok (decode (b3 ++ b2 ++ b1 ++ b0), rest)) ∧
  (∀ bs : List Byte, bs.length < 4 → decodeBytes bs = .error .truncated)

/-- Words of the spec's T3 table decode to the instructions it names. -/
def Obligations.SampleWordsDecode : Prop :=
  decode 0x002081B3 = .add 3 1 2 ∧ decode 0x4020D1B3 = .sra 3 1 2 ∧ decode 0xFFF08193 = .addi 3 1 0xFFF ∧
  decode 0x40409193 = .slli 3 1 0b0100000 4 ∧ decode 0x0240D193 = .srai 3 1 0b0000001 4 ∧
  decode 0xABCDE2B7 = .lui 5 0xABCDE ∧ decode 0x00100073 = .ecall 0x2000 ∧
  decode 0x022081B3 = .unimpFunct 0x022081B3 ∧ decode 0x00000063 = .unimpOpcode 0x00000063

/-- R68: which lines assemble: the ten R-type mnemonics, the six of I-type arithmetic with an immediate from -2048 to 2047, the three
shifts with an amount below 32, LUI with an immediate below 2^20, ECALL, and a raw word below 2^32, and no other line. What they
make is well-formed; registers, immediates and amounts stand in their fields by value; the shift lines have 0000000 in w[31:25],
SRAI 0100000; ECALL is `0x00000073`. The forms are the spec's decision D16. -/
def Obligations.AssemblerPlacesOperands : Prop :=
  (∀ (l : AsmLine) (i : Instr), assemble l = some i → i.wellFormed = true) ∧
  (∀ (m : Op) (rd rs1 rs2 : Reg),
    ((assemble (.rType m rd rs1 rs2)).isSome = true ↔ m ∈ [Op.add, .sub, .xor, .or, .and, .sll, .srl, .sra, .slt, .sltu]) ∧
    ∀ i, assemble (.rType m rd rs1 rs2) = some i →
      rdOf (encode i) = rd ∧ rs1Of (encode i) = rs1 ∧ rs2Of (encode i) = rs2 ∧ dispatch (describe (encode i)) = m) ∧
  (∀ (m : Op) (rd rs1 : Reg) (v : Int),
    ((assemble (.iArith m rd rs1 v)).isSome = true ↔
      m ∈ [Op.addi, .xori, .ori, .andi, .slti, .sltiu] ∧ -2048 ≤ v ∧ v ≤ 2047) ∧
    ∀ i, assemble (.iArith m rd rs1 v) = some i →
      (immOf (encode i)).toInt = v ∧ rdOf (encode i) = rd ∧ rs1Of (encode i) = rs1 ∧ dispatch (describe (encode i)) = m) ∧
  (∀ (m : Op) (rd rs1 : Reg) (n : Nat),
    ((assemble (.iShift m rd rs1 n)).isSome = true ↔ m ∈ [Op.slli, .srli, .srai] ∧ n < 32) ∧
    ∀ i, assemble (.iShift m rd rs1 n) = some i →
      (shamtOf (encode i)).toNat = n ∧ immHiOf (encode i) = (if m = .srai then 0b0100000 else 0) ∧
        rdOf (encode i) = rd ∧ rs1Of (encode i) = rs1 ∧ dispatch (describe (encode i)) = m) ∧
  (∀ (rd : Reg) (n : Nat),
    (n < 2 ^ 20 → ∃ i, assemble (.lui rd n) = some i ∧ (encode i).toNat = n * 2 ^ 12 + rd.val * 2 ^ 7 + 0x37) ∧
    (2 ^ 20 ≤ n → assemble (.lui rd n) = none)) ∧
  (∀ n : Nat, (n < 2 ^ 32 → ∃ i, assemble (.word n) = some i ∧ (encode i).toNat = n) ∧
    (2 ^ 32 ≤ n → assemble (.word n) = none)) ∧
  (assemble .ecall).map encode = some 0x00000073

/-! ## The register-register instructions -/

/-- R103, R104: ADD and SUB, modulo 2^32. -/
def Obligations.AddAndSubWrapSilently : Prop :=
  DecodesAs 0xFE00707F 0x00000033 (fun w => .add (rdOf w) (rs1Of w) (rs2Of w)) ∧
  DecodesAs 0xFE00707F 0x40000033 (fun w => .sub (rdOf w) (rs1Of w) (rs2Of w)) ∧
  ∀ (rd rs1 rs2 : Reg) (s : State),
    (∃ t v, exec (.add rd rs1 rs2) s = .next t ∧ Computes rd v s t ∧
      v.toNat = ((s.readReg rs1).toNat + (s.readReg rs2).toNat) % 2 ^ 32) ∧
    (∃ t v, exec (.sub rd rs1 rs2) s = .next t ∧ Computes rd v s t ∧
      (v.toNat : Int) = ((s.readReg rs1).toNat - (s.readReg rs2).toNat : Int) % 2 ^ 32)

/-- R105, R106, R107: XOR, OR and AND, bit by bit. -/
def Obligations.XorOrAndActBitByBit : Prop :=
  DecodesAs 0xFE00707F 0x00004033 (fun w => .xor (rdOf w) (rs1Of w) (rs2Of w)) ∧
  DecodesAs 0xFE00707F 0x00006033 (fun w => .or (rdOf w) (rs1Of w) (rs2Of w)) ∧
  DecodesAs 0xFE00707F 0x00007033 (fun w => .and (rdOf w) (rs1Of w) (rs2Of w)) ∧
  ∀ (rd rs1 rs2 : Reg) (s : State),
    (∃ t v, exec (.xor rd rs1 rs2) s = .next t ∧ Computes rd v s t ∧
      ∀ k < 32, v.getLsbD k = Bool.xor ((s.readReg rs1).getLsbD k) ((s.readReg rs2).getLsbD k)) ∧
    (∃ t v, exec (.or rd rs1 rs2) s = .next t ∧ Computes rd v s t ∧
      ∀ k < 32, v.getLsbD k = ((s.readReg rs1).getLsbD k || (s.readReg rs2).getLsbD k)) ∧
    (∃ t v, exec (.and rd rs1 rs2) s = .next t ∧ Computes rd v s t ∧
      ∀ k < 32, v.getLsbD k = ((s.readReg rs1).getLsbD k && (s.readReg rs2).getLsbD k))

/-- R108, R109, R110, R113: SLL, SRL and SRA by the low 5 bits of `x[rs2]`; SRA is the floor of the signed quotient. -/
def Obligations.RegisterShiftsUseLowFiveBits : Prop :=
  DecodesAs 0xFE00707F 0x00001033 (fun w => .sll (rdOf w) (rs1Of w) (rs2Of w)) ∧
  DecodesAs 0xFE00707F 0x00005033 (fun w => .srl (rdOf w) (rs1Of w) (rs2Of w)) ∧
  DecodesAs 0xFE00707F 0x40005033 (fun w => .sra (rdOf w) (rs1Of w) (rs2Of w)) ∧
  ∀ (rd rs1 rs2 : Reg) (s : State),
    (∃ t v, exec (.sll rd rs1 rs2) s = .next t ∧ Computes rd v s t ∧
      v.toNat = (s.readReg rs1).toNat * 2 ^ ((s.readReg rs2).toNat % 32) % 2 ^ 32) ∧
    (∃ t v, exec (.srl rd rs1 rs2) s = .next t ∧ Computes rd v s t ∧
      v.toNat = (s.readReg rs1).toNat / 2 ^ ((s.readReg rs2).toNat % 32)) ∧
    (∃ t v, exec (.sra rd rs1 rs2) s = .next t ∧ Computes rd v s t ∧
      v.toInt = (s.readReg rs1).toInt / 2 ^ ((s.readReg rs2).toNat % 32))

/-- R111, R112: SLT and SLTU write the word 1 or the word 0. -/
def Obligations.SetLessThanWritesOneOrZero : Prop :=
  DecodesAs 0xFE00707F 0x00002033 (fun w => .slt (rdOf w) (rs1Of w) (rs2Of w)) ∧
  DecodesAs 0xFE00707F 0x00003033 (fun w => .sltu (rdOf w) (rs1Of w) (rs2Of w)) ∧
  ∀ (rd rs1 rs2 : Reg) (s : State),
    (∃ t, exec (.slt rd rs1 rs2) s = .next t ∧
      Computes rd (if (s.readReg rs1).toInt < (s.readReg rs2).toInt then 1 else 0) s t) ∧
    (∃ t, exec (.sltu rd rs1 rs2) s = .next t ∧
      Computes rd (if (s.readReg rs1).toNat < (s.readReg rs2).toNat then 1 else 0) s t)

/-! ## The register-immediate instructions -/

/-- R115: ADDI adds the sign-extended immediate, modulo 2^32. -/
def Obligations.AddiAddsSignExtendedImmediate : Prop :=
  DecodesAs 0x0000707F 0x00000013 (fun w => .addi (rdOf w) (rs1Of w) (immOf w)) ∧
  ∀ (rd rs1 : Reg) (imm : BitVec 12) (s : State),
    ∃ t v, exec (.addi rd rs1 imm) s = .next t ∧ Computes rd v s t ∧
      (v.toNat : Int) = ((s.readReg rs1).toNat + imm.toInt) % 2 ^ 32

/-- R116, R117, R118: XORI, ORI and ANDI, bit by bit with the sign-extended immediate: bits 31 to 12 are its bit 11. -/
def Obligations.LogicImmediatesSignExtend : Prop :=
  DecodesAs 0x0000707F 0x00004013 (fun w => .xori (rdOf w) (rs1Of w) (immOf w)) ∧
  DecodesAs 0x0000707F 0x00006013 (fun w => .ori (rdOf w) (rs1Of w) (immOf w)) ∧
  DecodesAs 0x0000707F 0x00007013 (fun w => .andi (rdOf w) (rs1Of w) (immOf w)) ∧
  ∀ (rd rs1 : Reg) (imm : BitVec 12) (s : State),
    (∃ t v, exec (.xori rd rs1 imm) s = .next t ∧ Computes rd v s t ∧
      ∀ k < 32, v.getLsbD k = Bool.xor ((s.readReg rs1).getLsbD k) (imm.getLsbD (min k 11))) ∧
    (∃ t v, exec (.ori rd rs1 imm) s = .next t ∧ Computes rd v s t ∧
      ∀ k < 32, v.getLsbD k = ((s.readReg rs1).getLsbD k || imm.getLsbD (min k 11))) ∧
    (∃ t v, exec (.andi rd rs1 imm) s = .next t ∧ Computes rd v s t ∧
      ∀ k < 32, v.getLsbD k = ((s.readReg rs1).getLsbD k && imm.getLsbD (min k 11)))

/-- R119, R120, R121: SLLI, SRLI and SRAI by w[24:20]; w[31:25] selects SRLI or SRAI and otherwise makes no difference. -/
def Obligations.ImmediateShiftsUseShamtField : Prop :=
  DecodesAs 0x0000707F 0x00001013 (fun w => .slli (rdOf w) (rs1Of w) (immHiOf w) (shamtOf w)) ∧
  DecodesAs 0xFE00707F 0x00005013 (fun w => .srli (rdOf w) (rs1Of w) (shamtOf w)) ∧
  (∀ w : Word, w &&& 0x0000707F = 0x00005013 → w &&& 0xFE000000 ≠ 0 →
    decode w = .srai (rdOf w) (rs1Of w) (immHiOf w) (shamtOf w)) ∧
  ∀ (rd rs1 : Reg) (immHi : BitVec 7) (shamt : BitVec 5) (s : State),
    (∃ t v, exec (.slli rd rs1 immHi shamt) s = .next t ∧ Computes rd v s t ∧
      v.toNat = (s.readReg rs1).toNat * 2 ^ shamt.toNat % 2 ^ 32) ∧
    (∃ t v, exec (.srli rd rs1 shamt) s = .next t ∧ Computes rd v s t ∧
      v.toNat = (s.readReg rs1).toNat / 2 ^ shamt.toNat) ∧
    (∃ t v, exec (.srai rd rs1 immHi shamt) s = .next t ∧ Computes rd v s t ∧
      v.toInt = (s.readReg rs1).toInt / 2 ^ shamt.toNat)

/-- R122: SLTI compares as signed with the sign-extended immediate. -/
def Obligations.SltiComparesSigned : Prop :=
  DecodesAs 0x0000707F 0x00002013 (fun w => .slti (rdOf w) (rs1Of w) (immOf w)) ∧
  ∀ (rd rs1 : Reg) (imm : BitVec 12) (s : State),
    ∃ t, exec (.slti rd rs1 imm) s = .next t ∧
      Computes rd (if (s.readReg rs1).toInt < imm.toInt then 1 else 0) s t

/-- R123: SLTIU compares as unsigned, in the default mode with the sign-extended immediate, in mode `zext` with the raw field;
the two modes agree for an immediate below 0x800. The default is the spec's decision D2 (log entry 10). -/
def Obligations.SltiuComparesUnsignedInEitherMode : Prop :=
  DecodesAs 0x0000707F 0x00003013 (fun w => .sltiu (rdOf w) (rs1Of w) (immOf w)) ∧
  ∀ (rd rs1 : Reg) (imm : BitVec 12) (s : State),
    (∃ t, exec (.sltiu rd rs1 imm) s = .next t ∧
      Computes rd (if (s.readReg rs1).toNat < (if imm.toNat < 0x800 then imm.toNat else imm.toNat + 0xFFFFF000) then 1 else 0)
        s t) ∧
    exec (.sltiu rd rs1 imm) s = execSltiuIn .sext rd rs1 imm s ∧
    (∃ t, execSltiuIn .zext rd rs1 imm s = .next t ∧
      Computes rd (if (s.readReg rs1).toNat < imm.toNat then 1 else 0) s t) ∧
    (imm.toNat < 0x800 → execSltiuIn .zext rd rs1 imm s = execSltiuIn .sext rd rs1 imm s)

/-! ## LUI -/

/-- R125: LUI writes the upper 20 bits of its word, whatever the registers hold. -/
def Obligations.LuiLoadsUpperImmediate : Prop :=
  DecodesAs 0x0000007F 0x00000037 (fun w => .lui (rdOf w) (extractBits w 31 12)) ∧
  (∀ (rd : Reg) (imm20 : BitVec 20) (s : State),
    ∃ t v, exec (.lui rd imm20) s = .next t ∧ Computes rd v s t ∧ v.toNat = imm20.toNat * 2 ^ 12) ∧
  (∀ (w : Word) (s : State), w &&& 0x0000007F = 0x00000037 →
    ∃ t, exec (decode w) s = .next t ∧ Computes (rdOf w) (w &&& 0xFFFFF000) s t)

/-- R126, a derivation of the spec's own: LUI then ADDI builds any 32-bit constant; the upper part is C[31:12], plus 1 when bit 11 of C is set. -/
def Obligations.LuiThenAddiBuildsConstant : Prop :=
  ∀ (c : Word) (rd : Reg) (s : State), rd ≠ 0 →
    ∃ t u, exec (.lui rd (extractBits (c - signExtendBits c 12) 31 12)) s = .next t ∧
      exec (.addi rd rd (extractBits c 11 0)) t = .next u ∧ u.readReg rd = c ∧
      (extractBits (c - signExtendBits c 12) 31 12).toNat = (c.toNat / 2 ^ 12 + (if c.getLsbD 11 then 1 else 0)) % 2 ^ 20

/-! ## The system call -/

/-- R127: every word whose low seven bits are 1110011 is the system call, and its other bits make no difference. -/
def Obligations.EverySystemWordIsEcall : Prop :=
  ∀ w : Word, w &&& 0x0000007F = 0x00000073 →
    decode w = .ecall (extractBits w 31 7) ∧ ∀ s, exec (decode w) s = exec (decode 0x00000073) s

/-- R130, R131, R134 to R137: the six calls that emit a word or a byte emit exactly that one event and go on; the numbers their
payloads stand for. The registers x17 and x10 are the spec's decision D3 (log entry 8); the signedness of call 2 is free (log entry 11). -/
def Obligations.PrintCallsEmitOneEvent : Prop :=
  ∀ (u : BitVec 25) (s : State),
    (s.readReg 17 = 1 → ∃ t, exec (.ecall u) s = .next t ∧ Reports [.emit (.int (s.readReg 10))] s t) ∧
    (s.readReg 17 = 2 → ∃ t, exec (.ecall u) s = .next t ∧ Reports [.emit (.float (s.readReg 10))] s t) ∧
    (s.readReg 17 = 11 → ∃ t b, exec (.ecall u) s = .next t ∧ Reports [.emit (.char b)] s t ∧
      b.toNat = (s.readReg 10).toNat % 256) ∧
    (s.readReg 17 = 34 → ∃ t, exec (.ecall u) s = .next t ∧ Reports [.emit (.hex (s.readReg 10))] s t) ∧
    (s.readReg 17 = 35 → ∃ t, exec (.ecall u) s = .next t ∧ Reports [.emit (.bin (s.readReg 10))] s t) ∧
    (s.readReg 17 = 36 → ∃ t, exec (.ecall u) s = .next t ∧ Reports [.emit (.uint (s.readReg 10))] s t) ∧
    (∀ v : Word, (Emission.int v).number = some v.toInt ∧ (Emission.uint v).number = some (v.toNat : Int) ∧
      (Emission.hex v).number = some (v.toNat : Int) ∧ (Emission.bin v).number = some (v.toNat : Int) ∧
      ((Emission.float v).number = some v.toInt ∨ (Emission.float v).number = some (v.toNat : Int)))

/-- R132: call 4 emits the bytes before the first zero byte; where there is none before the end of memory it records the
diagnostic and halts with the string fault, the pc left at the ECALL: the spec's decision D5 (log entry 14). Nothing is said of the
exit code there. The registers are decision D3 (log entry 8). -/
def Obligations.PrintStringEmitsOrFaults : Prop :=
  ∀ (u : BitVec 25) (s : State), s.readReg 17 = 4 →
    (∀ bytes : List Byte, (s.readReg 10).toNat + bytes.length < Config.memSize →
      (∀ k (h : k < bytes.length), s.mem.read ((s.readReg 10).toNat + k) = bytes[k] ∧ bytes[k] ≠ 0) →
      s.mem.read ((s.readReg 10).toNat + bytes.length) = 0 →
      ∃ t, exec (.ecall u) s = .next t ∧ Reports [.emit (.str bytes)] s t) ∧
    ((∀ p, (s.readReg 10).toNat ≤ p → p < Config.memSize → s.mem.read p ≠ 0) →
      ∃ t, exec (.ecall u) s = .next t ∧ WritesNone s t ∧
        t.trace = s.trace ++ [.diag (.stringOutOfRange (s.readReg 10) s.pc)] ∧ t.pc = s.pc ∧
        t.runState = .halted ∧ t.haltCause = some .stringFault ∧ SameImage s t ∧ t.cleanEnd = false)

/-- R133, R138: calls 10 and 93 end the run, with exit code 0 and with `x[10]`; the pc stays, no event, no register written, also in
the last word of the image. The registers are the spec's decision D3 (log entry 8). -/
def Obligations.ExitCallsHaltTheCore : Prop :=
  ∀ (u : BitVec 25) (s : State),
    (s.readReg 17 = 10 → ∃ t, exec (.ecall u) s = .next t ∧ Exits .exitCall10 0 s t) ∧
    (s.readReg 17 = 93 → ∃ t, exec (.ecall u) s = .next t ∧ Exits .exitCall93 (s.readReg 10) s t)

/-- R139: any other call number is a silent no-op. That all 32 bits are compared is the spec's decision D15 (log entry 8). -/
def Obligations.UnknownCallIsSilentNoOp : Prop :=
  ∀ (u : BitVec 25) (s : State), (s.readReg 17).toNat ∉ [1, 2, 4, 10, 11, 34, 35, 36, 93] →
    ∃ t, exec (.ecall u) s = .next t ∧ Reports [] s t

/-- R140: the system call always completes, writes no register and no memory, and either goes on or ends the run with the pc at
the ECALL. That it halts with code 0 at the end of the image (R96) is the spec's decision D1 (log entry 13), the string fault with
the pc kept (R132) its decision D5 (log entry 14). -/
def Obligations.EcallWritesNoRegister : Prop :=
  ∀ (u : BitVec 25) (s : State), ∃ t, exec (.ecall u) s = .next t ∧ WritesNone s t ∧ SameImage s t ∧
    (GoesOn s t ∨ t.pc = s.pc ∧ t.runState = .halted ∧
      (t.haltCause = some .exitCall10 ∨ t.haltCause = some .exitCall93 ∨ t.haltCause = some .stringFault))

/-! ## Unimplemented words -/

/-- R142: a word whose opcode is none of the four is reported and skipped. The diagnostic's name and payload are the spec's
decision D9 (log entry 18). -/
def Obligations.UnimplementedOpcodeIsReported : Prop :=
  (∀ w : Word, w &&& 0x7F ≠ 0x33 → w &&& 0x7F ≠ 0x13 → w &&& 0x7F ≠ 0x37 → w &&& 0x7F ≠ 0x73 →
    decode w = .unimpOpcode w) ∧
  ∀ (w : Word) (s : State), ∃ t, exec (.unimpOpcode w) s = .next t ∧
    Reports [.diag (.unimplementedOpcode w s.pc)] s t

/-- R143: a word of opcode 0110011 whose (funct3, funct7) pair is not one of the ten is reported and skipped. The diagnostic's name
and payload are the spec's decision D9 (log entry 18). -/
def Obligations.UnimplementedFunctionIsReported : Prop :=
  (∀ w : Word, w &&& 0x7F = 0x33 →
    w &&& 0xFE00707F ∉ [0x00000033#32, 0x40000033#32, 0x00004033#32, 0x00006033#32, 0x00007033#32, 0x00001033#32,
      0x00005033#32, 0x40005033#32, 0x00002033#32, 0x00003033#32] →
    decode w = .unimpFunct w) ∧
  ∀ (w : Word) (s : State), ∃ t, exec (.unimpFunct w) s = .next t ∧
    Reports [.diag (.unimplementedFunct w s.pc)] s t

/-! ## The step and the whole machine -/

/-- No word stops the machine: every instruction answers a next state in every state (R64, R145). -/
def Obligations.EveryInstructionCompletes : Prop :=
  ∀ (i : Instr) (s : State), ∃ t, exec i s = .next t

/-- R93: register 0 is forced to zero at the end of every step, whatever the operation was and whatever it held. -/
def Obligations.RegisterZeroIsForcedToZero : Prop :=
  ∀ (i : Instr) (s t : State), exec i s = .next t → t.regs[(0 : Reg)] = 0 ∧ t.readReg 0 = 0

/-- R94, R132, R133, R138: every operation alike advances the pc by 4, unless a system call ended the run; then the pc stays, and the core has halted
with the call's cause and code, and wherever the core has halted for another reason than the end of the image the pc stays. That
call 93 takes its code from x10 is the spec's decision D3 (log entry 8, PRESUMED), the string fault with the pc kept its decision D5
(log entry 14). -/
def Obligations.PcAdvancesUnlessACallEndsTheRun : Prop :=
  ∀ (i : Instr) (s t : State), exec i s = .next t →
    (Advances s t ∨
      (∃ u, i = .ecall u) ∧ t.pc = s.pc ∧
        (HaltedWith .exitCall10 0 t ∨ HaltedWith .exitCall93 (s.readReg 10) t ∨ t.faulted = true)) ∧
    (s.runState = .running → t.runState = .halted → t.haltCause ≠ some .endOfImage → t.pc = s.pc)

/-- R96: once the advanced pc has reached IMAGE_LEN the core halts with code 0, whatever the operation was; a system call that ended
the run in the last word keeps its own cause (R152). The policy is the spec's decision D1 (log entry 13). -/
def Obligations.EndOfImageHaltsTheCore : Prop :=
  ∀ (i : Instr) (s t : State), exec i s = .next t →
    (t.pc = s.pc + 4 → s.imageLen ≤ (s.pc + 4).toNat → HaltedWith .endOfImage 0 t) ∧
    (t.haltCause = some .endOfImage → s.haltCause ≠ some .endOfImage → t.pc = s.pc + 4 ∧ s.imageLen ≤ t.pc.toNat)

/-- R34, R48: no step changes memory or IMAGE_LEN. -/
def Obligations.MemoryIsConstant : Prop :=
  ∀ s t : State, step s = .next t → SameImage s t

/-- R141, R152: a step appends at most one event, and never takes one away. -/
def Obligations.TraceGrowsByAtMostOneEvent : Prop :=
  ∀ s t : State, step s = .next t → ∃ es : List Event, t.trace = s.trace ++ es ∧ es.length ≤ 1

/-- R97: a HALTED core performs no step; reset leaves it. That it has no successor is the spec's decision D11 (log entry 6). -/
def Obligations.HaltedIsAbsorbing : Prop :=
  ∀ s : State, (s.runState = .halted ↔ step s = .fault .coreHalted) ∧ s.assertReset.runState = .running

/-- R21, R22: the exit code and the halt cause change only in the step that halts the core. That call 93 takes its code from x10 is the
spec's decision D3 (log entry 8, PRESUMED), the end of the image with code 0 its decision D1 (log entry 13), the string fault its
decision D5 (log entry 14). -/
def Obligations.ExitCodeWrittenOnlyAtHalt : Prop :=
  ∀ s t : State, step s = .next t →
    SameRun s t ∨
    HaltedWith .endOfImage 0 t ∨ HaltedWith .exitCall10 0 t ∨ HaltedWith .exitCall93 (s.readReg 10) t ∨ t.faulted = true

/-- A step runs the decoded instruction: when the four bytes at the pc decode to `i`, the step of a running core is `exec i`, with
nothing around it. -/
def Obligations.StepRunsDecodedInstruction : Prop :=
  ∀ (s : State) (i : Instr) (rest : List Byte), s.runState = .running → s.pc.toNat + 4 ≤ Config.memSize →
    decodeBytes [s.mem.read s.pc.toNat, s.mem.read (s.pc.toNat + 1), s.mem.read (s.pc.toNat + 2),
      s.mem.read (s.pc.toNat + 3)] = .ok (i, rest) →
    step s = exec i s

/-- Placing a word where the machine fetches makes the next step run it, in every state whose pc has four bytes of memory. -/
def Obligations.PlacedWordIsRunNext : Prop :=
  ∀ (s : State) (w : Word), s.mem.wf = true → s.pc.toNat + 4 ≤ Config.memSize →
    step (s.withFetchWord 32 w.toNat) = exec (decode w) (s.withFetchWord 32 w.toNat) ∧
    (s.withFetchWord 32 w.toNat).mem.wf = true ∧
    ∀ a, a < s.pc.toNat ∨ s.pc.toNat + 4 ≤ a → (s.withFetchWord 32 w.toNat).mem.read a = s.mem.read a

/-- R98, R82, R84: the meanings, written per instruction, and the spec's one step function over the descriptor, in which the control
signals open the two read ports and the write port of the register file and the operand routing feeds the ALU, are the same
function. -/
def Obligations.ExecRefinesDatapath : Prop :=
  ∀ (s : State) (w : Word), exec (decode w) s = .next (datapathStep s w)

/-- R16, R82: a register the operation's control signals do not read has no influence: changing it changes no other register, no
event, and neither pc nor run state nor halt cause. Of the exit code the same is said only where the step did not end in the string
fault, where it is unspecified (R95, R149). That the system call reads x17 and x10 is the spec's decision D3 (log entry 8,
PRESUMED). -/
def Obligations.UnreadRegistersHaveNoInfluence : Prop :=
  ∀ (w : Word) (s : State) (r : Reg) (v : Word),
    ¬((controls (dispatch (describe w))).readsRs1 = true ∧ r = rs1Of w) →
    ¬((controls (dispatch (describe w))).readsRs2 = true ∧ r = rs2Of w) →
    ¬(dispatch (describe w) = .ecall ∧ (r = 17 ∨ r = 10)) →
    ∃ t t', exec (decode w) s = .next t ∧ exec (decode w) (s.writeReg r v) = .next t' ∧
      (∀ q, q ≠ r → t'.readReg q = t.readReg q) ∧
      ((controls (dispatch (describe w))).writesRd = true → r = rdOf w → t'.readReg r = t.readReg r) ∧
      t'.pc = t.pc ∧ t'.runState = t.runState ∧ t'.haltCause = t.haltCause ∧ t'.trace = t.trace ∧
      (t.haltCause ≠ some .stringFault → t'.exitCode = t.exitCode)

/-- R16, R82: the only register a step can change is `x[rd]`, and only where the control signals write it. -/
def Obligations.OnlyTheDestinationChanges : Prop :=
  ∀ (w : Word) (s t : State), exec (decode w) s = .next t →
    ∀ r, t.readReg r ≠ s.readReg r → (controls (dispatch (describe w))).writesRd = true ∧ r = rdOf w

/-- R31, a derivation of the spec's own: the invariant of the step boundary is kept by every step. -/
def Obligations.StepKeepsTheBoundaryInvariant : Prop :=
  ∀ s t : State, s.Inv → step s = .next t → t.Inv

/-- The invariant holds right after reset (with the model's IMAGE_LEN there, log entry 1). -/
def Obligations.ResetMeetsTheBoundaryInvariant : Prop :=
  Machine.State.reset.Inv

/-- R38, R39, a derivation of the spec's own: under the invariant a running core's fetch never fails: it steps. -/
def Obligations.RunningCoreAlwaysSteps : Prop :=
  ∀ s : State, s.Inv → s.runState = .running →
    ∃ t, step s = .next t ∧ s.pc.toNat % 4 = 0 ∧ s.pc.toNat + 4 ≤ Config.memSize

/-! ## Reset, launch, memory, runs -/

/-- R30, R161: what reset leaves in every field the spec gives a reset value for; zero in x1 to x31 and in the exit code is the spec's
decision D4 (log entry 9). That every byte of memory is 0 then is the model's choice of a reset state with nothing loaded (log
entries 1 and 2); the reset input that leaves memory and IMAGE_LEN is the model's operation for the spec's decision D6 (log
entry 15). -/
def Obligations.ResetLeavesTheSpecValues : Prop :=
  (∀ r : Reg, Machine.State.reset.readReg r = 0 ∧ Machine.State.reset.regs[r] = 0) ∧
  Machine.State.reset.pc = 0 ∧ Machine.State.reset.runState = .running ∧ Machine.State.reset.exitCode = 0 ∧
  Machine.State.reset.haltCause = none ∧ Machine.State.reset.trace = [] ∧
  (∀ a, Machine.State.reset.mem.read a = 0) ∧
  ∀ s : State, s.assertReset.regs = Machine.State.reset.regs ∧ s.assertReset.pc = 0 ∧ s.assertReset.runState = .running ∧
    s.assertReset.exitCode = 0 ∧ s.assertReset.haltCause = none ∧ s.assertReset.trace = [] ∧ SameImage s s.assertReset

/-- R33, R164, R169: a launch places the image at address 0 over zeros, sets IMAGE_LEN, preloads `x[1..31]`, leaves `x[0]` 0 and
the rest at reset, and meets the invariant; an empty or oversize image is refused (decision D12, log entry 16). -/
def Obligations.LaunchPlacesTheImage : Prop :=
  ∀ (image : List Byte) (preload : Vector Word 32),
    (1 ≤ image.length → image.length ≤ Config.memSize →
      ∃ s, Machine.State.launch image preload = .ok s ∧ s.Inv ∧ s.imageLen = image.length ∧
        (∀ a, s.mem.read a = image.getD a 0) ∧ (∀ r, r ≠ 0 → s.readReg r = preload[r]) ∧ s.readReg 0 = 0 ∧
        s.pc = 0 ∧ s.runState = .running ∧ s.exitCode = 0 ∧ s.haltCause = none ∧ s.trace = []) ∧
    (image.length = 0 → Machine.State.launch image preload = .error .imageEmpty) ∧
    (Config.memSize < image.length → Machine.State.launch image preload = .error .imageTooLong)

/-- R167: the result dump has 256 digits, eight a register, `x[0]` first, the most significant digit first. -/
def Obligations.DumpShowsEveryRegister : Prop :=
  ∀ s : State, s.dumpDigits.length = 256 ∧
    ∀ (r : Reg) (k : Nat), k < 8 →
      s.dumpDigits[8 * r.val + k]?.map BitVec.toNat = some ((s.readReg r).toNat / 2 ^ (28 - 4 * k) % 16)

/-- R36, R37, R42: `MemWrite` in range keeps the canonical form, is read back by `MemRead`, and leaves every other byte; an access
that is not wholly below MEM_SIZE answers nothing: for the read by the spec's decisions D5 and D17 (log entries 14 and 12), for the
write by the model's choice (log entries 2 and 12). -/
def Obligations.MemWriteIsReadBack : Prop :=
  ∀ (m : Memory) (a n v : Nat), m.wf = true →
    (a + n ≤ Config.memSize → ∃ m', memWrite m a n v = some m' ∧ m'.wf = true ∧ memRead m' a n = some (v % 256 ^ n) ∧
      ∀ b, b < a ∨ a + n ≤ b → m'.read b = m.read b) ∧
    (Config.memSize < a + n → memRead m a n = none ∧ memWrite m a n v = none)

/-- R99, a derivation of the spec's own: from every state that meets the invariant the run ends: after at most the words left in the image the core has
halted, and while it runs the pc advances by 4 a step. It rests wholly on the halt at the end of the image, the spec's decision D1
(log entry 13, unsafe). -/
def Obligations.EveryRunHalts : Prop :=
  ∀ s : State, s.Inv → s.runState = .running →
    (∃ k t, k ≤ (s.imageLen - s.pc.toNat + 3) / 4 ∧ core.run k s = .next t ∧ t.runState = .halted ∧
      (t.cleanEnd = true ∨ t.faulted = true)) ∧
    (∀ k t, core.run k s = .next t → t.runState = .running → t.pc.toNat = s.pc.toNat + 4 * k)
end

