-- ==== Sys2Proof/Laws/Codec.lean ====
section
/-! SUPPORT. The codec as arithmetic: fields are quotients and remainders, layouts are sums. With these lemmas an encoding fact
is a question for omega. -/

namespace Sys2Proof

/-- A concatenation as a sum. -/
theorem toNat_append_add {m n : Nat} (x : BitVec m) (y : BitVec n) : (x ++ y).toNat = x.toNat * 2 ^ n + y.toNat := by
  rw [BitVec.toNat_append, ← Nat.shiftLeft_add_eq_or_of_lt y.isLt, Nat.shiftLeft_eq]

/-- A field as a quotient and a remainder. -/
theorem extractBits_toNat (w : Word) (hi lo : Nat) (h : lo ≤ hi ∧ hi ≤ 31) :
    (extractBits w hi lo h).toNat = w.toNat / 2 ^ lo % 2 ^ (hi - lo + 1) := by
  simp [extractBits, BitVec.extractLsb, BitVec.extractLsb'_toNat, Nat.shiftRight_eq_div_pow]

@[simp] theorem regBits_toNat (r : Reg) : (regBits r).toNat = r.val := by simp [regBits]

@[simp] theorem regOfBits_val (b : BitVec 5) : (regOfBits b).val = b.toNat := rfl

@[simp] theorem regOfBits_regBits (r : Reg) : regOfBits (regBits r) = r := Fin.ext (regBits_toNat r)

@[simp] theorem regBits_regOfBits (b : BitVec 5) : regBits (regOfBits b) = b := BitVec.eq_of_toNat_eq (regBits_toNat _)

/-! ## The layouts as sums -/

theorem encodeR_toNat (f7 : BitVec 7) (rs2 rs1 : Reg) (f3 : BitVec 3) (rd : Reg) : (encodeR f7 rs2 rs1 f3 rd).toNat =
    f7.toNat * 2 ^ 25 + rs2.val * 2 ^ 20 + rs1.val * 2 ^ 15 + f3.toNat * 2 ^ 12 + rd.val * 2 ^ 7 + 0x33 := by
  refine (toNat_append_add (f7 ++ regBits rs2 ++ regBits rs1 ++ f3 ++ regBits rd) 0b0110011#7).trans ?_
  simp only [toNat_append_add, regBits_toNat, BitVec.toNat_ofNat]
  omega

theorem encodeI_toNat (imm : BitVec 12) (rs1 : Reg) (f3 : BitVec 3) (rd : Reg) : (encodeI imm rs1 f3 rd).toNat =
    imm.toNat * 2 ^ 20 + rs1.val * 2 ^ 15 + f3.toNat * 2 ^ 12 + rd.val * 2 ^ 7 + 0x13 := by
  refine (toNat_append_add (imm ++ regBits rs1 ++ f3 ++ regBits rd) 0b0010011#7).trans ?_
  simp only [toNat_append_add, regBits_toNat, BitVec.toNat_ofNat]
  omega

theorem encodeLui_toNat (rd : Reg) (imm20 : BitVec 20) :
    (encode (.lui rd imm20)).toNat = imm20.toNat * 2 ^ 12 + rd.val * 2 ^ 7 + 0x37 := by
  refine (toNat_append_add (imm20 ++ regBits rd) 0b0110111#7).trans ?_
  simp only [toNat_append_add, regBits_toNat, BitVec.toNat_ofNat]
  omega

theorem encodeEcall_toNat (u : BitVec 25) : (encode (.ecall u)).toNat = u.toNat * 2 ^ 7 + 0x73 := by
  refine (toNat_append_add u 0b1110011#7).trans ?_
  simp

/-- The two sub-fields of a shift immediate as the 12-bit field (R53). -/
theorem immHi_shamt_toNat (h : BitVec 7) (sh : BitVec 5) : (h ++ sh).toNat = h.toNat * 2 ^ 5 + sh.toNat := toNat_append_add h sh

theorem immHi_of_append (h : BitVec 7) (sh : BitVec 5) : ((h ++ sh : BitVec 12).extractLsb 11 5 : BitVec 7) = h := by
  apply BitVec.eq_of_toNat_eq
  have := toNat_append_add h sh
  have := sh.isLt
  have := h.isLt
  simp only [BitVec.extractLsb, BitVec.extractLsb'_toNat, Nat.shiftRight_eq_div_pow]
  omega

theorem shamt_of_append (h : BitVec 7) (sh : BitVec 5) : ((h ++ sh : BitVec 12).extractLsb 4 0 : BitVec 5) = sh := by
  apply BitVec.eq_of_toNat_eq
  have := toNat_append_add h sh
  have := sh.isLt
  simp only [BitVec.extractLsb, BitVec.extractLsb'_toNat, Nat.shiftRight_eq_div_pow]
  omega

/-! ## The fields of an encoded layout -/

/-- Every field of an R-layout word is read back (R52, R75). -/
theorem fields_encodeR (f7 : BitVec 7) (rs2 rs1 : Reg) (f3 : BitVec 3) (rd : Reg) :
    extractBits (encodeR f7 rs2 rs1 f3 rd) 31 25 = f7 ∧ regOfBits (extractBits (encodeR f7 rs2 rs1 f3 rd) 24 20) = rs2 ∧
    regOfBits (extractBits (encodeR f7 rs2 rs1 f3 rd) 19 15) = rs1 ∧ extractBits (encodeR f7 rs2 rs1 f3 rd) 14 12 = f3 ∧
    regOfBits (extractBits (encodeR f7 rs2 rs1 f3 rd) 11 7) = rd ∧
    (extractBits (encodeR f7 rs2 rs1 f3 rd) 6 0).toNat = 0x33 := by
  have := f3.isLt
  have := f7.isLt
  refine ⟨BitVec.eq_of_toNat_eq ?_, Fin.ext ?_, Fin.ext ?_, BitVec.eq_of_toNat_eq ?_, Fin.ext ?_, ?_⟩ <;>
    simp only [regOfBits_val, extractBits_toNat, encodeR_toNat] <;> omega

/-- Every field of an I-layout word is read back (R53, R75). -/
theorem fields_encodeI (imm : BitVec 12) (rs1 : Reg) (f3 : BitVec 3) (rd : Reg) :
    extractBits (encodeI imm rs1 f3 rd) 31 20 = imm ∧ regOfBits (extractBits (encodeI imm rs1 f3 rd) 19 15) = rs1 ∧
    extractBits (encodeI imm rs1 f3 rd) 14 12 = f3 ∧ regOfBits (extractBits (encodeI imm rs1 f3 rd) 11 7) = rd ∧
    (extractBits (encodeI imm rs1 f3 rd) 6 0).toNat = 0x13 := by
  have := f3.isLt
  have := imm.isLt
  refine ⟨BitVec.eq_of_toNat_eq ?_, Fin.ext ?_, BitVec.eq_of_toNat_eq ?_, Fin.ext ?_, ?_⟩ <;>
    simp only [regOfBits_val, extractBits_toNat, encodeI_toNat] <;> omega

/-! ## The fields of a word and the word again -/

/-- A word is the sum of its R-layout fields. -/
theorem toNat_eq_fields (w : Word) : w.toNat = (extractBits w 31 25).toNat * 2 ^ 25 + (extractBits w 24 20).toNat * 2 ^ 20 +
    (extractBits w 19 15).toNat * 2 ^ 15 + (extractBits w 14 12).toNat * 2 ^ 12 + (extractBits w 11 7).toNat * 2 ^ 7 +
    (extractBits w 6 0).toNat := by
  have := w.isLt
  simp only [extractBits_toNat]
  omega

/-- The I immediate field is funct7 and rs2 side by side (R75). -/
theorem imm12_eq_fields (w : Word) :
    (extractBits w 31 20).toNat = (extractBits w 31 25).toNat * 32 + (extractBits w 24 20).toNat := by
  have := w.isLt
  simp only [extractBits_toNat]
  omega

/-- The U immediate field is the I immediate field, rs1 and funct3 side by side (R75). -/
theorem imm20_eq_fields (w : Word) : (extractBits w 31 12).toNat =
    (extractBits w 31 20).toNat * 256 + (extractBits w 19 15).toNat * 8 + (extractBits w 14 12).toNat := by
  have := w.isLt
  simp only [extractBits_toNat]
  omega

/-! ## The mask of a table row as a comparison of fields -/

/-- `w & 0x7F = match` compares the opcode field. -/
theorem mask_opcode (w c : Word) (hc : c.toNat < 2 ^ 7) :
    w &&& 0x0000007F = c ↔ (extractBits w 6 0).toNat = c.toNat := by
  rw [extractBits_toNat]
  have h : (w &&& 0x0000007F#32).toNat = w.toNat % 2 ^ 7 := by
    rw [BitVec.toNat_and]; exact Nat.and_two_pow_sub_one_eq_mod w.toNat 7
  constructor
  · intro e; have := congrArg BitVec.toNat e; simp only [BitVec.ofNat_eq_ofNat, h] at this; omega
  · intro e; apply BitVec.eq_of_toNat_eq; simp only [BitVec.ofNat_eq_ofNat, h]; omega

/-- A mask of `n` ones from bit `k` on selects a field. -/
theorem and_shifted_ones (x k n : Nat) : x &&& ((2 ^ n - 1) * 2 ^ k) = (x / 2 ^ k % 2 ^ n) * 2 ^ k := by
  apply Nat.eq_of_testBit_eq
  intro i
  simp only [Nat.testBit_and, Nat.testBit_mul_two_pow, Nat.testBit_mod_two_pow, Nat.testBit_div_two_pow,
    Nat.testBit_two_pow_sub_one]
  by_cases h : k ≤ i
  · simp [h, Bool.and_comm]
  · simp [h]

theorem or_eq_add_of_lt {a b n : Nat} (h : b < 2 ^ n) : a * 2 ^ n ||| b = a * 2 ^ n + b := by
  rw [← Nat.shiftLeft_eq, Nat.shiftLeft_add_eq_or_of_lt h]

/-- The mask of an I row keeps funct3 and opcode (R114). -/
theorem mask_funct3_toNat (w : Word) : (w &&& 0x0000707F).toNat =
    (extractBits w 14 12).toNat * 2 ^ 12 + (extractBits w 6 0).toNat := by
  have e : (0x0000707F#32).toNat = ((2 ^ 3 - 1) * 2 ^ 12 ||| (2 ^ 7 - 1) * 2 ^ 0) := by decide
  have hb : w.toNat / 2 ^ 0 % 2 ^ 7 * 2 ^ 0 < 2 ^ 12 := by omega
  refine (BitVec.toNat_and w 0x0000707F#32).trans ?_
  rw [e, Nat.and_or_distrib_left, and_shifted_ones, and_shifted_ones, or_eq_add_of_lt hb, extractBits_toNat,
    extractBits_toNat]
  omega

/-- The mask of an R row keeps funct7, funct3 and opcode (R102). -/
theorem mask_funct7_toNat (w : Word) : (w &&& 0xFE00707F).toNat = (extractBits w 31 25).toNat * 2 ^ 25 +
    (extractBits w 14 12).toNat * 2 ^ 12 + (extractBits w 6 0).toNat := by
  have e : (0xFE00707F#32).toNat = ((2 ^ 7 - 1) * 2 ^ 25 ||| (0x0000707F#32).toNat) := by decide
  have hb : (w &&& 0x0000707F#32).toNat < 2 ^ 25 :=
    Nat.lt_of_le_of_lt (Nat.and_le_right.trans_eq' (BitVec.toNat_and _ _)) (by decide)
  refine (BitVec.toNat_and w 0xFE00707F#32).trans ?_
  rw [e, Nat.and_or_distrib_left, and_shifted_ones, ← BitVec.toNat_and, or_eq_add_of_lt hb]
  have := mask_funct3_toNat w
  simp only [extractBits_toNat, BitVec.ofNat_eq_ofNat] at *
  omega

/-- The mask of the U immediate keeps w[31:12] (R59). -/
theorem mask_upper_toNat (w : Word) : (w &&& 0xFFFFF000).toNat = (extractBits w 31 12).toNat * 2 ^ 12 := by
  have e : (0xFFFFF000#32).toNat = (2 ^ 20 - 1) * 2 ^ 12 := by decide
  refine (BitVec.toNat_and w 0xFFFFF000#32).trans ?_
  rw [e, and_shifted_ones, extractBits_toNat]

/-- The mask of imm[11:5] keeps w[31:25] (R63). -/
theorem mask_immHi_toNat (w : Word) : (w &&& 0xFE000000).toNat = (extractBits w 31 25).toNat * 2 ^ 25 := by
  have e : (0xFE000000#32).toNat = (2 ^ 7 - 1) * 2 ^ 25 := by decide
  refine (BitVec.toNat_and w 0xFE000000#32).trans ?_
  rw [e, and_shifted_ones, extractBits_toNat]

end Sys2Proof
end

