-- ==== Sys2Proof/Laws/Alu.lean ====
section
/-! SUPPORT. The operand forms and the ALU as arithmetic. -/

namespace Sys2Proof.Machine

/-! ## Immediates -/

theorem immIOf_eq (imm : BitVec 12) : immIOf imm = imm.signExtend 32 := by
  unfold immIOf signExtendBits
  rw [BitVec.setWidth_setWidth_of_le _ (by decide), BitVec.setWidth_eq]

/-- The I immediate keeps its signed value (R57). -/
theorem immIOf_toInt (imm : BitVec 12) : (immIOf imm).toInt = imm.toInt := by
  rw [immIOf_eq, BitVec.toInt_signExtend_of_le (by decide)]

theorem immIOf_toNat (imm : BitVec 12) :
    (immIOf imm).toNat = if imm.toNat < 0x800 then imm.toNat else imm.toNat + 0xFFFFF000 := by
  have h := immIOf_toInt imm
  rw [BitVec.toInt_eq_toNat_cond, BitVec.toInt_eq_toNat_cond] at h
  have := (immIOf imm).isLt
  have := imm.isLt
  split_ifs at * <;> omega

/-- Bits 31 to 12 of the I immediate are its bit 11. -/
theorem immIOf_getLsbD (imm : BitVec 12) (k : Nat) (h : k < 32) : (immIOf imm).getLsbD k = imm.getLsbD (min k 11) := by
  rw [immIOf_eq, BitVec.getLsbD_signExtend]
  by_cases hk : k < 12
  · simp [h, hk, Nat.min_eq_left (Nat.le_of_lt_succ hk)]
  · rw [Nat.min_eq_right (by omega)]
    simp [h, hk, BitVec.msb_eq_getLsbD_last]

theorem immUOf_toNat (imm20 : BitVec 20) : (immUOf imm20).toNat = imm20.toNat * 2 ^ 12 := by
  have := imm20.isLt
  rw [immUOf, BitVec.toNat_shiftLeft, BitVec.toNat_setWidth, Nat.shiftLeft_eq]
  omega

/-! ## Shift amounts and truth values -/

/-- The amount of a shift is its operand modulo 32 (R113). -/
theorem shiftAmount_eq (b : Word) : shiftAmount b = b.toNat % 32 :=
  (BitVec.toNat_and b 0x1F#32).trans (Nat.and_two_pow_sub_one_eq_mod b.toNat 5)

theorem shiftAmount_shamt (shamt : BitVec 5) : shiftAmount (shamtOperand shamt) = shamt.toNat := by
  have := shamt.isLt
  rw [shiftAmount_eq, shamtOperand, BitVec.toNat_setWidth]
  omega

theorem truthWord_decide (p : Prop) [Decidable p] : truthWord (decide p) = if p then 1 else 0 := by simp [truthWord]

/-! ## The ALU functions -/

variable (a b : Word)

theorem alu_sll_toNat : (alu .sll a b).toNat = a.toNat * 2 ^ shiftAmount b % 2 ^ 32 := by
  simp [alu, BitVec.toNat_shiftLeft, Nat.shiftLeft_eq]

theorem alu_srl_toNat : (alu .srl a b).toNat = a.toNat / 2 ^ shiftAmount b := by
  simp [alu, Nat.shiftRight_eq_div_pow]

/-- The arithmetic right shift is the floor of the signed quotient (R110). -/
theorem alu_sra_toInt : (alu .sra a b).toInt = a.toInt / 2 ^ shiftAmount b := by
  simp [alu, BitVec.toInt_sshiftRight, Int.shiftRight_eq_div_pow]

theorem alu_slt : alu .slt a b = if a.toInt < b.toInt then 1 else 0 := truthWord_decide _

theorem alu_sltu : alu .sltu a b = if a.toNat < b.toNat then 1 else 0 := truthWord_decide _

end Sys2Proof.Machine
end

