-- ==== Sys2Proof/Laws/State.lean ====
section
/-! SUPPORT. What each named update of State does to each field, so that no proof unfolds a record update. -/

namespace Sys2Proof.Machine

variable (s : State)

@[simp] theorem State.writeReg_regs (r : Reg) (v : Word) : (s.writeReg r v).regs = s.regs.set r.val v r.isLt := rfl
@[simp] theorem State.writeReg_pc (r : Reg) (v : Word) : (s.writeReg r v).pc = s.pc := rfl
@[simp] theorem State.writeReg_runState (r : Reg) (v : Word) : (s.writeReg r v).runState = s.runState := rfl
@[simp] theorem State.writeReg_exitCode (r : Reg) (v : Word) : (s.writeReg r v).exitCode = s.exitCode := rfl
@[simp] theorem State.writeReg_haltCause (r : Reg) (v : Word) : (s.writeReg r v).haltCause = s.haltCause := rfl
@[simp] theorem State.writeReg_trace (r : Reg) (v : Word) : (s.writeReg r v).trace = s.trace := rfl
@[simp] theorem State.writeReg_mem (r : Reg) (v : Word) : (s.writeReg r v).mem = s.mem := rfl
@[simp] theorem State.writeReg_imageLen (r : Reg) (v : Word) : (s.writeReg r v).imageLen = s.imageLen := rfl
@[simp] theorem State.writeReg_freeDraws (r : Reg) (v : Word) : (s.writeReg r v).freeDraws = s.freeDraws := rfl

@[simp] theorem State.record_regs (e : Event) : (s.record e).regs = s.regs := rfl
@[simp] theorem State.record_pc (e : Event) : (s.record e).pc = s.pc := rfl
@[simp] theorem State.record_runState (e : Event) : (s.record e).runState = s.runState := rfl
@[simp] theorem State.record_exitCode (e : Event) : (s.record e).exitCode = s.exitCode := rfl
@[simp] theorem State.record_haltCause (e : Event) : (s.record e).haltCause = s.haltCause := rfl
@[simp] theorem State.record_trace (e : Event) : (s.record e).trace = s.trace ++ [e] := rfl
@[simp] theorem State.record_mem (e : Event) : (s.record e).mem = s.mem := rfl
@[simp] theorem State.record_imageLen (e : Event) : (s.record e).imageLen = s.imageLen := rfl
@[simp] theorem State.record_freeDraws (e : Event) : (s.record e).freeDraws = s.freeDraws := rfl

@[simp] theorem State.normalise_regs : s.normalise.regs = s.regs.set 0 0 := rfl
@[simp] theorem State.normalise_pc : s.normalise.pc = s.pc := rfl
@[simp] theorem State.normalise_runState : s.normalise.runState = s.runState := rfl
@[simp] theorem State.normalise_exitCode : s.normalise.exitCode = s.exitCode := rfl
@[simp] theorem State.normalise_haltCause : s.normalise.haltCause = s.haltCause := rfl
@[simp] theorem State.normalise_trace : s.normalise.trace = s.trace := rfl
@[simp] theorem State.normalise_mem : s.normalise.mem = s.mem := rfl
@[simp] theorem State.normalise_imageLen : s.normalise.imageLen = s.imageLen := rfl
@[simp] theorem State.normalise_freeDraws : s.normalise.freeDraws = s.freeDraws := rfl

@[simp] theorem State.advance_regs : s.advance.regs = s.regs := rfl
@[simp] theorem State.advance_pc : s.advance.pc = s.pc + 4 := rfl
@[simp] theorem State.advance_runState : s.advance.runState = s.runState := rfl
@[simp] theorem State.advance_exitCode : s.advance.exitCode = s.exitCode := rfl
@[simp] theorem State.advance_haltCause : s.advance.haltCause = s.haltCause := rfl
@[simp] theorem State.advance_trace : s.advance.trace = s.trace := rfl
@[simp] theorem State.advance_mem : s.advance.mem = s.mem := rfl
@[simp] theorem State.advance_imageLen : s.advance.imageLen = s.imageLen := rfl
@[simp] theorem State.advance_freeDraws : s.advance.freeDraws = s.freeDraws := rfl

@[simp] theorem State.halt_regs (c : HaltCause) (x : Word) : (s.halt c x).regs = s.regs := rfl
@[simp] theorem State.halt_pc (c : HaltCause) (x : Word) : (s.halt c x).pc = s.pc := rfl
@[simp] theorem State.halt_runState (c : HaltCause) (x : Word) : (s.halt c x).runState = .halted := rfl
@[simp] theorem State.halt_exitCode (c : HaltCause) (x : Word) : (s.halt c x).exitCode = x := rfl
@[simp] theorem State.halt_haltCause (c : HaltCause) (x : Word) : (s.halt c x).haltCause = some c := rfl
@[simp] theorem State.halt_trace (c : HaltCause) (x : Word) : (s.halt c x).trace = s.trace := rfl
@[simp] theorem State.halt_mem (c : HaltCause) (x : Word) : (s.halt c x).mem = s.mem := rfl
@[simp] theorem State.halt_imageLen (c : HaltCause) (x : Word) : (s.halt c x).imageLen = s.imageLen := rfl
@[simp] theorem State.halt_freeDraws (c : HaltCause) (x : Word) : (s.halt c x).freeDraws = s.freeDraws := rfl

@[simp] theorem State.haltFault_regs : s.haltFault.regs = s.regs := rfl
@[simp] theorem State.haltFault_pc : s.haltFault.pc = s.pc := rfl
@[simp] theorem State.haltFault_runState : s.haltFault.runState = .halted := rfl
@[simp] theorem State.haltFault_exitCode : s.haltFault.exitCode = Config.stringFaultExitCode s.freeDraws := rfl
@[simp] theorem State.haltFault_haltCause : s.haltFault.haltCause = some .stringFault := rfl
@[simp] theorem State.haltFault_trace : s.haltFault.trace = s.trace := rfl
@[simp] theorem State.haltFault_mem : s.haltFault.mem = s.mem := rfl
@[simp] theorem State.haltFault_imageLen : s.haltFault.imageLen = s.imageLen := rfl
@[simp] theorem State.haltFault_freeDraws : s.haltFault.freeDraws = s.freeDraws + 1 := rfl

end Sys2Proof.Machine
end

