-- ==== Sys2Proof/Laws/Registers.lean ====
section
/-! SUPPORT. Reading a register after the updates that touch the register file. -/

namespace Sys2Proof.Machine

variable (s : State)

/-- Register 0 reads as 0 in every state. -/
@[simp] theorem State.readReg_zero : s.readReg 0 = 0 := if_pos rfl

theorem State.readReg_of_ne {r : Reg} (h : r ≠ 0) : s.readReg r = s.regs[r] := if_neg h

/-- Two states with one register file read alike. -/
theorem State.readReg_congr {s t : State} (h : t.regs = s.regs) (r : Reg) : t.readReg r = s.readReg r := by
  simp [State.readReg, h]

@[simp] theorem State.readReg_record (e : Event) (r : Reg) : (s.record e).readReg r = s.readReg r := rfl
@[simp] theorem State.readReg_advance (r : Reg) : s.advance.readReg r = s.readReg r := rfl
@[simp] theorem State.readReg_halt (c : HaltCause) (x : Word) (r : Reg) : (s.halt c x).readReg r = s.readReg r := rfl
@[simp] theorem State.readReg_haltFault (r : Reg) : s.haltFault.readReg r = s.readReg r := rfl

@[simp] theorem State.readReg_writeReg_same {r : Reg} (h : r ≠ 0) (v : Word) : (s.writeReg r v).readReg r = v := by
  simp [State.readReg, h]

@[simp] theorem State.readReg_writeReg_ne {r q : Reg} (h : q ≠ r) (v : Word) :
    (s.writeReg r v).readReg q = s.readReg q := by
  have hv : ¬r.val = q.val := fun e => h (Fin.ext e.symm)
  simp only [State.readReg, State.writeReg_regs]
  split
  · rfl
  · simp [hv]

/-- The normalisation is seen by no read. -/
@[simp] theorem State.readReg_normalise (r : Reg) : s.normalise.readReg r = s.readReg r := by
  simp only [State.readReg, State.normalise_regs]
  split
  · rfl
  · next h =>
    have hv : ¬(0 = r.val) := fun e => h (Fin.ext e.symm)
    simp [hv]

/-- After the normalisation the cell of register 0 holds 0. -/
@[simp] theorem State.normalise_x0 : s.normalise.regs[(0 : Reg)] = 0 := by simp

end Sys2Proof.Machine
end

