-- ==== Sys2Proof/Laws/Sequencer.lean ====
section
/-! SUPPORT. What the shared operations `finish` and `writeBack` do, said once; proofs about a meaning cite these. -/

namespace Sys2Proof.Machine

variable (s : State)

/-- The check at the end of the image either halts the core with code 0 or changes nothing. -/
theorem State.checkEnd_cases : s.checkEnd = s.halt .endOfImage 0 ∧ s.imageLen ≤ s.pc.toNat ∨
    s.checkEnd = s ∧ s.pc.toNat < s.imageLen := by
  unfold State.checkEnd
  split
  · exact .inl ⟨rfl, ‹_›⟩
  · exact .inr ⟨rfl, by omega⟩

@[simp] theorem State.checkEnd_regs : s.checkEnd.regs = s.regs := by rcases s.checkEnd_cases with ⟨h, -⟩ | ⟨h, -⟩ <;> simp [h]
@[simp] theorem State.checkEnd_pc : s.checkEnd.pc = s.pc := by rcases s.checkEnd_cases with ⟨h, -⟩ | ⟨h, -⟩ <;> simp [h]
@[simp] theorem State.checkEnd_trace : s.checkEnd.trace = s.trace := by
  rcases s.checkEnd_cases with ⟨h, -⟩ | ⟨h, -⟩ <;> simp [h]
@[simp] theorem State.checkEnd_mem : s.checkEnd.mem = s.mem := by rcases s.checkEnd_cases with ⟨h, -⟩ | ⟨h, -⟩ <;> simp [h]
@[simp] theorem State.checkEnd_imageLen : s.checkEnd.imageLen = s.imageLen := by
  rcases s.checkEnd_cases with ⟨h, -⟩ | ⟨h, -⟩ <;> simp [h]
@[simp] theorem State.checkEnd_freeDraws : s.checkEnd.freeDraws = s.freeDraws := by
  rcases s.checkEnd_cases with ⟨h, -⟩ | ⟨h, -⟩ <;> simp [h]
@[simp] theorem State.readReg_checkEnd (r : Reg) : s.checkEnd.readReg r = s.readReg r :=
  State.readReg_congr s.checkEnd_regs r

variable (e : OpEnd)

@[simp] theorem State.finish_trace : (s.finish e).trace = s.trace := by cases e <;> simp [State.finish]
@[simp] theorem State.finish_mem : (s.finish e).mem = s.mem := by cases e <;> simp [State.finish]
@[simp] theorem State.finish_imageLen : (s.finish e).imageLen = s.imageLen := by cases e <;> simp [State.finish]
theorem State.finish_x0 : (s.finish e).regs[(0 : Reg)] = 0 := by cases e <;> simp [State.finish]
@[simp] theorem State.readReg_finish (r : Reg) : (s.finish e).readReg r = s.readReg r := by
  cases e <;> simp [State.finish]

/-- Where the operation continues the pc advances by 4 and the end of the image is checked. -/
theorem State.finish_continues_goesOn : GoesOn s (s.finish .continues) := by
  refine ⟨⟨by simp [State.finish], fun h => ?_, ⟨fun a => by simp, by simp, by simp⟩, by simp [State.finish]⟩, fun h => ?_⟩
  · have : s.finish .continues = s.normalise.advance := if_neg (Nat.not_le.mpr h)
    rw [this]; exact ⟨rfl, rfl, rfl⟩
  · have : s.finish .continues = s.normalise.advance.halt .endOfImage 0 := if_pos h
    rw [this]; exact ⟨rfl, rfl, rfl⟩

theorem State.finish_exits (c : HaltCause) (x : Word) : s.finish (.exits c x) = s.normalise.halt c x := rfl

theorem State.finish_faults : s.finish .faults = s.normalise.haltFault := rfl

/-- A step's end depends on the state before it only through what `writeReg` and `record` leave alone. -/
theorem GoesOn.of_writeReg {r : Reg} {v : Word} {t : State} (h : GoesOn (s.writeReg r v) t) : GoesOn s t := h

theorem GoesOn.of_record {ev : Event} {t : State} (h : GoesOn (s.record ev) t) : GoesOn s t := h

/-- What every computational instruction does: the result goes to `x[rd]`, nothing else changes, the core goes on. -/
theorem writeBack_computes (rd : Reg) (v : Word) : ∃ t, writeBack rd v s = .next t ∧ Computes rd v s t := by
  refine ⟨_, rfl, ⟨fun h => by simp [h], fun r h => by simp [h], by simp, State.finish_x0 _ _⟩, by simp, ?_⟩
  exact (GoesOn.of_writeReg s (State.finish_continues_goesOn _)).1

/-- Every computational instruction checks the end of the image. -/
theorem writeBack_checksEnd {rd : Reg} {v : Word} {t : State} (h : writeBack rd v s = .next t) : ChecksEnd s t :=
  Host.Outcome.next.inj h ▸ (GoesOn.of_writeReg s (State.finish_continues_goesOn _)).2

/-- What an operation that only records events and continues does. -/
theorem finish_record_reports (ev : Event) : Reports [ev] s ((s.record ev).finish .continues) :=
  ⟨⟨fun r => by simp, State.finish_x0 _ _⟩, by simp, (GoesOn.of_record s (State.finish_continues_goesOn _)).1⟩

theorem finish_record_checksEnd (ev : Event) : ChecksEnd s ((s.record ev).finish .continues) :=
  (GoesOn.of_record s (State.finish_continues_goesOn _)).2

theorem finish_reports_nothing : Reports [] s (s.finish .continues) :=
  ⟨⟨fun r => by simp, State.finish_x0 _ _⟩, by simp, s.finish_continues_goesOn.1⟩

/-- What an operation that ends the run by an exit call does. -/
theorem finish_exits_spec (c : HaltCause) (x : Word) : Exits c x s (s.finish (.exits c x)) :=
  ⟨⟨fun r => by simp, State.finish_x0 _ _⟩, by simp, rfl, ⟨rfl, rfl, rfl⟩, ⟨fun a => by simp, by simp, by simp⟩, rfl⟩

/-- The run state of a halted step's end is HALTED with its cause. -/
theorem finish_faults_halts : (s.finish .faults).runState = .halted ∧ (s.finish .faults).haltCause = some .stringFault ∧
    (s.finish .faults).pc = s.pc := ⟨rfl, rfl, rfl⟩

/-- The check at the end of the image depends on five fields alone. -/
theorem checkEnd_congr {a b : State} (himg : a.imageLen = b.imageLen) (hpc : a.pc = b.pc) (hrun : a.runState = b.runState)
    (hcause : a.haltCause = b.haltCause) (hcode : a.exitCode = b.exitCode) :
    a.checkEnd.runState = b.checkEnd.runState ∧ a.checkEnd.haltCause = b.checkEnd.haltCause ∧
      a.checkEnd.exitCode = b.checkEnd.exitCode := by
  unfold State.checkEnd
  rw [himg, hpc]
  split
  · exact ⟨rfl, rfl, rfl⟩
  · exact ⟨hrun, hcause, hcode⟩

/-- How a step ends depends on the state before it only through these six fields. -/
theorem finish_congr (e : OpEnd) {a b : State} (himg : a.imageLen = b.imageLen) (hpc : a.pc = b.pc)
    (hrun : a.runState = b.runState) (hcause : a.haltCause = b.haltCause) (hcode : a.exitCode = b.exitCode)
    (hdraws : a.freeDraws = b.freeDraws) :
    (a.finish e).pc = (b.finish e).pc ∧ (a.finish e).runState = (b.finish e).runState ∧
      (a.finish e).haltCause = (b.finish e).haltCause ∧ (a.finish e).exitCode = (b.finish e).exitCode := by
  cases e with
  | continues =>
    exact ⟨by simp [State.finish, hpc], checkEnd_congr himg (by simp [hpc]) hrun hcause hcode⟩
  | exits _ _ => exact ⟨hpc, rfl, rfl, rfl⟩
  | faults =>
    refine ⟨hpc, rfl, rfl, ?_⟩
    show Config.stringFaultExitCode a.freeDraws = Config.stringFaultExitCode b.freeDraws
    rw [hdraws]

end Sys2Proof.Machine
end

