-- ==== Sys2Proof/Laws/Datapath.lean ====
section
/-! SUPPORT. The ports of the register file under their control signals, and what the operations of the datapath agree on. -/

namespace Sys2Proof.Machine

@[simp] theorem readPort_on (s : State) (r : Reg) : readPort true s r = s.readReg r := rfl
@[simp] theorem readPort_off (s : State) (r : Reg) : readPort false s r = 0 := rfl
@[simp] theorem writePort_on (rd : Reg) (v : Word) (s : State) : writePort true rd v s = s.writeReg rd v := rfl
@[simp] theorem writePort_off (rd : Reg) (v : Word) (s : State) : writePort false rd v s = s := rfl

/-- A read port does not see a write to a register it does not read. -/
theorem readPort_writeReg {reads : Bool} {r q : Reg} (s : State) (v : Word) (h : ¬(reads = true ∧ r = q)) :
    readPort reads (s.writeReg r v) q = readPort reads s q := by
  cases reads with
  | false => rfl
  | true => exact State.readReg_writeReg_ne s (fun e => h ⟨rfl, e.symm⟩) v

/-- A register the write port does not write reads as before. -/
theorem readReg_writePort {writesRd : Bool} {rd q : Reg} (v : Word) (s : State) (h : ¬(writesRd = true ∧ q = rd)) :
    (writePort writesRd rd v s).readReg q = s.readReg q := by
  cases writesRd with
  | false => rfl
  | true => exact State.readReg_writeReg_ne s (fun e => h ⟨rfl, e⟩) v

/-- Appending an event changes no register. -/
@[simp] theorem State.readReg_recordOpt (s : State) (e : Option Event) (r : Reg) : (s.recordOpt e).readReg r = s.readReg r := by
  cases e <;> rfl

/-- Exactly the operations with an ALU function write `x[rd]` (R82, R83). -/
theorem writesRd_iff_alu (op : Op) : (controls op).writesRd = (aluOpOf op).isSome := by cases op <;> rfl

end Sys2Proof.Machine
end

