-- ==== Sys2Proof/Laws/Memory.lean ====
section
/-! SUPPORT. The laws of memory: read after write, and the canonical form that every operation keeps. -/

namespace Sys2Proof.Machine

@[simp] theorem Memory.read_nil (a : Nat) : Memory.read [] a = unlistedByte := rfl

/-- A read after a write to the same address gives the byte written. -/
@[simp] theorem Memory.read_set_same (m : Memory) (a : Nat) (b : Byte) (lo : Nat) (h : m.wfFrom lo = true) :
    (m.set a b).read a = b := by
  induction m generalizing lo with
  | nil =>
    unfold Memory.set; split
    · next hb => simp [Memory.read, hb]
    · simp [Memory.read]
  | cons c rest ih =>
    obtain ⟨k, x⟩ := c
    simp only [Memory.wfFrom, Bool.and_eq_true, decide_eq_true_eq] at h
    have below : ∀ (r : Memory) (l : Nat), r.wfFrom l = true → a < l → r.read a = unlistedByte := by
      intro r
      induction r with
      | nil => intros; rfl
      | cons d r ihr =>
        obtain ⟨j, y⟩ := d
        intro l hw hl
        simp only [Memory.wfFrom, Bool.and_eq_true, decide_eq_true_eq] at hw
        rw [Memory.read, if_neg (by omega)]
        exact ihr (j + 1) hw.2 (by omega)
    unfold Memory.set
    split
    · next hak =>
      split
      · next hb =>
        rw [Memory.read, if_neg (by omega), hb]
        exact below rest (k + 1) h.2 (by omega)
      · simp [Memory.read]
    · split
      · next hak =>
        subst hak
        split
        · next hb => rw [hb]; exact below rest (a + 1) h.2 (by omega)
        · simp [Memory.read]
      · next hne =>
        rw [Memory.read, if_neg (by omega)]
        exact ih (k + 1) h.2

/-- A write leaves every other address alone. -/
theorem Memory.read_set_ne (m : Memory) {a c : Nat} (b : Byte) (h : c ≠ a) : (m.set a b).read c = m.read c := by
  induction m with
  | nil =>
    unfold Memory.set; split
    · rfl
    · simp [Memory.read, h.symm]
  | cons d rest ih =>
    obtain ⟨k, x⟩ := d
    unfold Memory.set
    split
    · split
      · rfl
      · simp [Memory.read, h.symm]
    · split
      · next hak =>
        subst hak
        split <;> simp [Memory.read, h.symm]
      · simp only [Memory.read, ih]

theorem Memory.wfFrom_mono {m : Memory} {lo lo' : Nat} (hle : lo' ≤ lo) (h : m.wfFrom lo = true) :
    m.wfFrom lo' = true := by
  cases m with
  | nil => rfl
  | cons c rest =>
    simp only [Memory.wfFrom, Bool.and_eq_true, decide_eq_true_eq] at h ⊢
    exact ⟨⟨⟨by omega, h.1.1.2⟩, h.1.2⟩, h.2⟩

/-- A write at or above the lowest address keeps the canonical form. -/
theorem Memory.wfFrom_set {m : Memory} {lo a : Nat} (b : Byte) (hlo : lo ≤ a) (ha : a < Config.memSize)
    (h : m.wfFrom lo = true) : (m.set a b).wfFrom lo = true := by
  induction m generalizing lo with
  | nil =>
    unfold Memory.set; split
    · rfl
    · next hb => simp [Memory.wfFrom, hlo, ha, hb]
  | cons c rest ih =>
    obtain ⟨k, x⟩ := c
    have h' := h
    simp only [Memory.wfFrom, Bool.and_eq_true, decide_eq_true_eq] at h'
    unfold Memory.set
    split
    · next hak =>
      split
      · exact h
      · next hb =>
        simp only [Memory.wfFrom, Bool.and_eq_true, decide_eq_true_eq]
        exact ⟨⟨⟨hlo, ha⟩, by simp [hb]⟩, ⟨⟨⟨by omega, h'.1.1.2⟩, h'.1.2⟩, h'.2⟩⟩
    · split
      · next hak =>
        subst hak
        split
        · exact Memory.wfFrom_mono (by omega) h'.2
        · next hb =>
          simp only [Memory.wfFrom, Bool.and_eq_true, decide_eq_true_eq]
          exact ⟨⟨⟨hlo, ha⟩, by simp [hb]⟩, h'.2⟩
      · next hak hne =>
        simp only [Memory.wfFrom, Bool.and_eq_true, decide_eq_true_eq]
        exact ⟨⟨⟨h'.1.1.1, h'.1.1.2⟩, h'.1.2⟩, ih (by omega) h'.2⟩

theorem Memory.wf_set {m : Memory} {a : Nat} (b : Byte) (ha : a < Config.memSize) (h : m.wf = true) :
    (m.set a b).wf = true := Memory.wfFrom_set b (Nat.zero_le _) ha h

theorem Memory.read_set (m : Memory) (h : m.wf = true) (a c : Nat) (b : Byte) :
    (m.set a b).read c = if c = a then b else m.read c := by
  split
  · next hc => rw [hc]; exact m.read_set_same a b 0 h
  · next hc => exact m.read_set_ne b hc

/-- Placing bytes inside memory keeps the canonical form. -/
theorem Memory.wf_place {m : Memory} {a : Nat} {bs : List Byte} (ha : a + bs.length ≤ Config.memSize) (h : m.wf = true) :
    (m.place a bs).wf = true := by
  induction bs generalizing m a with
  | nil => exact h
  | cons b bs ih =>
    rw [List.length_cons] at ha
    exact ih (by omega) (Memory.wf_set b (by omega) h)

/-- A byte outside the placed bytes reads as before. -/
theorem Memory.read_place_outside {m : Memory} {a c : Nat} {bs : List Byte} (hc : c < a ∨ a + bs.length ≤ c) :
    (m.place a bs).read c = m.read c := by
  induction bs generalizing m a with
  | nil => rfl
  | cons b bs ih =>
    rw [List.length_cons] at hc
    rw [Memory.place, ih (by omega), m.read_set_ne b (by omega)]

/-- The bytes read back where a list of bytes was placed are that list. -/
theorem Memory.bytes_place {m : Memory} {a : Nat} {bs : List Byte} (ha : a + bs.length ≤ Config.memSize) (h : m.wf = true) :
    (m.place a bs).bytes a bs.length = bs := by
  induction bs generalizing m a with
  | nil => rfl
  | cons b bs ih =>
    rw [List.length_cons] at ha
    have hw : (m.set a b).wf = true := Memory.wf_set b (by omega) h
    rw [List.length_cons, Memory.bytes, Memory.place, ih (by omega) hw, Memory.read_place_outside (by omega),
      Memory.read_set_same m a b 0 h]

theorem Memory.length_bytes (m : Memory) (a n : Nat) : (m.bytes a n).length = n := by
  induction n generalizing a with
  | zero => rfl
  | succ n ih => simp [Memory.bytes, ih]

theorem length_unpackLE (n v : Nat) : (unpackLE n v).length = n := by
  induction n generalizing v with
  | zero => rfl
  | succ n ih => simp [unpackLE, ih]

/-- The little-endian packing of the low bytes of a number is the number, modulo what the bytes can hold. -/
theorem packLE_unpackLE (n v : Nat) : packLE (unpackLE n v) = v % 256 ^ n := by
  induction n generalizing v with
  | zero => simp [unpackLE, packLE, Nat.mod_one]
  | succ n ih =>
    have hs : 256 ^ (n + 1) = 256 * 256 ^ n := by rw [Nat.pow_succ, Nat.mul_comm]
    rw [unpackLE, packLE, ih, BitVec.toNat_ofNat, hs, Nat.mod_mul]

/-- What `MemWrite` in range does: it keeps the canonical form, `MemRead` gives the value back, and no other byte changes. -/
theorem memWrite_spec {m : Memory} {a n v : Nat} (ha : a + n ≤ Config.memSize) (h : m.wf = true) :
    ∃ m', memWrite m a n v = some m' ∧ m'.wf = true ∧ m'.bytes a n = unpackLE n v ∧
      ∀ c, c < a ∨ a + n ≤ c → m'.read c = m.read c := by
  have hl := length_unpackLE n v
  refine ⟨m.place a (unpackLE n v), if_pos ha, Memory.wf_place (by omega) h, ?_, fun c hc => ?_⟩
  · have := Memory.bytes_place (m := m) (a := a) (bs := unpackLE n v) (by omega) h
    rwa [hl] at this
  · exact Memory.read_place_outside (by omega)

/-! ## The image -/

theorem Memory.wfFrom_ofImage {a : Nat} {bs : List Byte} (h : a + bs.length ≤ Config.memSize) :
    (Memory.ofImage a bs).wfFrom a = true := by
  induction bs generalizing a with
  | nil => rfl
  | cons b bs ih =>
    rw [List.length_cons] at h
    unfold Memory.ofImage
    split
    · exact Memory.wfFrom_mono (by omega) (ih (by omega))
    · next hb =>
      simp only [Memory.wfFrom, Bool.and_eq_true, decide_eq_true_eq]
      exact ⟨⟨⟨by omega, by omega⟩, by simp [hb]⟩, ih (by omega)⟩

/-- Below the lowest address of a canonical list every byte is unlisted. -/
theorem Memory.read_below {m : Memory} {lo a : Nat} (h : m.wfFrom lo = true) (ha : a < lo) : m.read a = unlistedByte := by
  induction m generalizing lo with
  | nil => rfl
  | cons c rest ih =>
    obtain ⟨k, x⟩ := c
    simp only [Memory.wfFrom, Bool.and_eq_true, decide_eq_true_eq] at h
    rw [Memory.read, if_neg (by omega)]
    exact ih h.2 (by omega)

/-- At or above MEM_SIZE a canonical memory lists nothing. -/
theorem Memory.read_above {m : Memory} {lo a : Nat} (h : m.wfFrom lo = true) (ha : Config.memSize ≤ a) :
    m.read a = unlistedByte := by
  induction m generalizing lo with
  | nil => rfl
  | cons c rest ih =>
    obtain ⟨k, x⟩ := c
    simp only [Memory.wfFrom, Bool.and_eq_true, decide_eq_true_eq] at h
    rw [Memory.read, if_neg (by omega)]
    exact ih h.2

/-- Byte `a + k` of the loaded memory is byte `k` of the image, zero past its end. -/
theorem Memory.read_ofImage (a : Nat) (bs : List Byte) (k : Nat) :
    (Memory.ofImage a bs).read (a + k) = bs.getD k unlistedByte := by
  have below : ∀ (bs : List Byte) (l c : Nat), c < l → (Memory.ofImage l bs).read c = unlistedByte := by
    intro bs
    induction bs with
    | nil => intros; rfl
    | cons b bs ih =>
      intro l c hc
      unfold Memory.ofImage
      split
      · exact ih (l + 1) c (by omega)
      · rw [Memory.read, if_neg (by omega)]; exact ih (l + 1) c (by omega)
  induction bs generalizing a k with
  | nil => simp [Memory.ofImage]
  | cons b bs ih =>
    unfold Memory.ofImage
    cases k with
    | zero =>
      split
      · next hb => rw [below bs (a + 1) (a + 0) (by omega)]; simp [hb]
      · simp [Memory.read]
    | succ k =>
      have hk : a + (k + 1) = a + 1 + k := by omega
      split
      · rw [hk, ih (a + 1) k]; simp
      · rw [Memory.read, if_neg (by omega), hk, ih (a + 1) k]; simp

/-- Equal contents are equal lists: two canonical memories that read alike everywhere are one memory. -/
theorem Memory.ext_of_wfFrom {m n : Memory} {lo : Nat} (hm : m.wfFrom lo = true) (hn : n.wfFrom lo = true)
    (h : ∀ a, m.read a = n.read a) : m = n := by
  induction m generalizing n lo with
  | nil =>
    cases n with
    | nil => rfl
    | cons d n =>
      obtain ⟨j, y⟩ := d
      simp only [Memory.wfFrom, Bool.and_eq_true, decide_eq_true_eq, bne_iff_ne] at hn
      have := h j
      simp [Memory.read] at this
      exact absurd this.symm hn.1.2
  | cons c m ih =>
    obtain ⟨k, x⟩ := c
    simp only [Memory.wfFrom, Bool.and_eq_true, decide_eq_true_eq, bne_iff_ne] at hm
    cases n with
    | nil =>
      have := h k
      simp [Memory.read] at this
      exact absurd this hm.1.2
    | cons d n =>
      obtain ⟨j, y⟩ := d
      simp only [Memory.wfFrom, Bool.and_eq_true, decide_eq_true_eq, bne_iff_ne] at hn
      have hkj : k = j := by
        rcases Nat.lt_trichotomy k j with hlt | heq | hgt
        · have h1 := h k
          rw [Memory.read, if_pos rfl, Memory.read, if_neg (by omega), Memory.read_below hn.2 (by omega)] at h1
          exact absurd h1 hm.1.2
        · exact heq
        · have h1 := h j
          rw [Memory.read, if_neg (by omega), Memory.read, if_pos rfl, Memory.read_below hm.2 (by omega)] at h1
          exact absurd h1.symm hn.1.2
      subst hkj
      have hxy : x = y := by simpa [Memory.read] using h k
      subst hxy
      have tails : m = n := by
        refine ih hm.2 hn.2 fun a => ?_
        by_cases ha : a = k
        · subst ha
          rw [Memory.read_below hm.2 (by omega), Memory.read_below hn.2 (by omega)]
        · simpa [Memory.read, Ne.symm ha] using h a
      rw [tails]

theorem Memory.ext_of_wf {m n : Memory} (hm : m.wf = true) (hn : n.wf = true) (h : ∀ a, m.read a = n.read a) : m = n :=
  Memory.ext_of_wfFrom hm hn h

end Sys2Proof.Machine
end

