-- ==== Sys2Proof/Laws/Decode.lean ====
section
/-! SUPPORT. What the decoder answers on the words of each opcode, and that the opcode table is unambiguous. -/

namespace Sys2Proof

open Sys2Proof.Machine (packLE_unpackLE)

/-- imm[11:5] of the I immediate is the field w[31:25] (R80). -/
theorem immHi_eq (w : Word) : ((extractBits w 31 20).extractLsb 11 5 : BitVec 7) = extractBits w 31 25 := by
  apply BitVec.eq_of_toNat_eq
  have := w.isLt
  simp only [BitVec.extractLsb, BitVec.extractLsb'_toNat, Nat.shiftRight_eq_div_pow, extractBits_toNat]
  omega

/-- imm[4:0] of the I immediate is the field w[24:20] (R58). -/
theorem shamt_eq (w : Word) : ((extractBits w 31 20).extractLsb 4 0 : BitVec 5) = extractBits w 24 20 := by
  apply BitVec.eq_of_toNat_eq
  simp only [BitVec.extractLsb, BitVec.extractLsb'_toNat, Nat.shiftRight_eq_div_pow, extractBits_toNat]
  omega

theorem dispatch_of_opcodeR {w : Word} (h : (extractBits w 6 0).toNat = 0x33) :
    dispatch (describe w) = dispatchR (extractBits w 14 12) (extractBits w 31 25) := by
  have h' : extractBits w 6 0 = 0b0110011#7 := BitVec.eq_of_toNat_eq h
  simp [dispatch, describe, layoutOf, h']

theorem dispatch_of_opcodeI {w : Word} (h : (extractBits w 6 0).toNat = 0x13) :
    dispatch (describe w) = dispatchI (extractBits w 14 12) (extractBits w 31 25) := by
  have h' : extractBits w 6 0 = 0b0010011#7 := BitVec.eq_of_toNat_eq h
  simp only [dispatch, describe, layoutOf, h', immHi_eq]
  rfl

theorem dispatch_of_opcodeU {w : Word} (h : (extractBits w 6 0).toNat = 0x37) : dispatch (describe w) = .lui := by
  have h' : extractBits w 6 0 = 0b0110111#7 := BitVec.eq_of_toNat_eq h
  simp [dispatch, describe, layoutOf, h']

theorem dispatch_of_opcodeSystem {w : Word} (h : (extractBits w 6 0).toNat = 0x73) : dispatch (describe w) = .ecall := by
  have h' : extractBits w 6 0 = 0b1110011#7 := BitVec.eq_of_toNat_eq h
  simp [dispatch, describe, layoutOf, h']

theorem dispatch_of_other {w : Word} (h1 : (extractBits w 6 0).toNat ≠ 0x33) (h2 : (extractBits w 6 0).toNat ≠ 0x13)
    (h3 : (extractBits w 6 0).toNat ≠ 0x37) (h4 : (extractBits w 6 0).toNat ≠ 0x73) :
    dispatch (describe w) = .unimpOpcode := by
  have ne : ∀ {c : BitVec 7}, (extractBits w 6 0).toNat ≠ c.toNat → ¬(extractBits w 6 0 = c) :=
    fun h e => h (congrArg BitVec.toNat e)
  have e1 := ne (c := 0b0110011#7) h1
  have e2 := ne (c := 0b0010011#7) h2
  have e3 := ne (c := 0b0110111#7) h3
  have e4 := ne (c := 0b1110011#7) h4
  simp [dispatch, describe, layoutOf, e1, e2, e3, e4]

/-- The words an R row fits are those with its funct7, funct3 and the opcode 0110011. -/
theorem fields_of_maskR {w c : Word} (h : w &&& 0xFE00707F = c) :
    (extractBits w 31 25).toNat = c.toNat / 2 ^ 25 ∧ (extractBits w 14 12).toNat = c.toNat / 2 ^ 12 % 2 ^ 13 ∧
      (extractBits w 6 0).toNat = c.toNat % 2 ^ 12 := by
  have := congrArg BitVec.toNat h
  rw [mask_funct7_toNat] at this
  have h1 := (extractBits w 31 25).isLt
  have h2 := (extractBits w 14 12).isLt
  have h3 := (extractBits w 6 0).isLt
  omega

/-- The words an I row fits are those with its funct3 and the opcode 0010011. -/
theorem fields_of_maskI {w c : Word} (h : w &&& 0x0000707F = c) :
    (extractBits w 14 12).toNat = c.toNat / 2 ^ 12 ∧ (extractBits w 6 0).toNat = c.toNat % 2 ^ 12 := by
  have := congrArg BitVec.toNat h
  rw [mask_funct3_toNat] at this
  have h3 := (extractBits w 6 0).isLt
  omega

/-- The words of an R row decode to the operation of its pair, with the operands of the descriptor. -/
theorem decodesAs_R {c : Word} {f3 : BitVec 3} {f7 : BitVec 7} {op : Op}
    (hc : c.toNat = f7.toNat * 2 ^ 25 + f3.toNat * 2 ^ 12 + 0x33) (hop : dispatchR f3 f7 = op) :
    DecodesAs 0xFE00707F c (fun w => op.instr (describe w)) := by
  intro w hw
  obtain ⟨h7, h3, ho⟩ := fields_of_maskR hw
  have := f3.isLt
  have e3 : extractBits w 14 12 = f3 := BitVec.eq_of_toNat_eq (by omega)
  have e7 : extractBits w 31 25 = f7 := BitVec.eq_of_toNat_eq (by omega)
  unfold decode
  rw [dispatch_of_opcodeR (by omega), e3, e7, hop]

/-- The words of an I row whose funct3 alone selects the operation. -/
theorem decodesAs_I {c : Word} {f3 : BitVec 3} {op : Op} (hc : c.toNat = f3.toNat * 2 ^ 12 + 0x13)
    (hop : ∀ h, dispatchI f3 h = op) : DecodesAs 0x0000707F c (fun w => op.instr (describe w)) := by
  intro w hw
  obtain ⟨h3, ho⟩ := fields_of_maskI hw
  have e3 : extractBits w 14 12 = f3 := BitVec.eq_of_toNat_eq (by omega)
  unfold decode
  rw [dispatch_of_opcodeI (by omega), e3, hop]

/-- The decoder reads a word back from its four bytes. -/
theorem decodeBytes_unpackLE (w : Word) (rest : List Byte) : decodeBytes (unpackLE 4 w.toNat ++ rest) = .ok (decode w, rest) := by
  have h := packLE_unpackLE 4 w.toNat
  have hw : w.toNat % 256 ^ 4 = w.toNat := Nat.mod_eq_of_lt w.isLt
  show Except.ok (decode (BitVec.ofNat 32 (packLE (unpackLE 4 w.toNat))), rest) = _
  rw [h, hw, BitVec.ofNat_toNat, BitVec.setWidth_eq]

/-- An R-layout word decodes to the operation of its pair. -/
theorem decode_encodeR (f7 : BitVec 7) (rs2 rs1 : Reg) (f3 : BitVec 3) (rd : Reg) {op : Op} (h : dispatchR f3 f7 = op) :
   decode (encodeR f7 rs2 rs1 f3 rd) = op.instr (describe (encodeR f7 rs2 rs1 f3 rd)) := by
  obtain ⟨h7, h2, h1, h3, hd, ho⟩ := fields_encodeR f7 rs2 rs1 f3 rd
  unfold decode; rw [dispatch_of_opcodeR ho, h3, h7, h]
/-- An I-layout word decodes to the operation of its funct3 and imm[11:5]. -/
theorem decode_encodeI (imm : BitVec 12) (rs1 : Reg) (f3 : BitVec 3) (rd : Reg) {op : Op} (h : dispatchI f3 (imm.extractLsb 11 5) = op) :
   decode (encodeI imm rs1 f3 rd) = op.instr (describe (encodeI imm rs1 f3 rd)) := by
  obtain ⟨hi, h1, h3, hd, ho⟩ := fields_encodeI imm rs1 f3 rd
  unfold decode; rw [dispatch_of_opcodeI ho, h3, ← immHi_eq, hi, h]
/-- A well-formed `unimpFunct` holds a word that is dispatched so. -/
theorem dispatch_of_wf_unimpFunct {w : Word} (h : (Instr.unimpFunct w).wellFormed = true) : dispatch (describe w) = .unimpFunct := by
  simp only [Instr.wellFormed, Bool.and_eq_true, beq_iff_eq, Bool.not_eq_true'] at h
  obtain ⟨ho, hp⟩ := h
  have ho' : (extractBits w 6 0).toNat = 0x33 := congrArg BitVec.toNat ho
  rw [dispatch_of_opcodeR ho']
  change implementedPairs.contains (extractBits w 14 12, extractBits w 31 25) = false at hp
  generalize extractBits w 14 12 = f3 at hp
  generalize extractBits w 31 25 = f7 at hp
  revert hp
  unfold dispatchR
  change BitVec 3 at f3
  change BitVec 7 at f7
  revert f3 f7
  decide +revert
/-- A well-formed `unimpOpcode` holds a word that is dispatched so. -/
theorem dispatch_of_wf_unimpOpcode {w : Word} (h : (Instr.unimpOpcode w).wellFormed = true) : dispatch (describe w) = .unimpOpcode := by
  simp only [Instr.wellFormed, recognisedOpcodes, Bool.not_eq_true'] at h
  have h' : ∀ c ∈ recognisedOpcodes, extractBits w 6 0 ≠ c := by
    intro c hc e
    have : recognisedOpcodes.contains (extractBits w 6 0) = true := by rw [e]; exact List.contains_iff_mem.2 hc
    exact absurd (h.symm.trans this) (by decide)
  refine dispatch_of_other ?_ ?_ ?_ ?_ <;> intro e
  · exact h' 0b0110011 (by decide) (BitVec.eq_of_toNat_eq e)
  · exact h' 0b0010011 (by decide) (BitVec.eq_of_toNat_eq e)
  · exact h' 0b0110111 (by decide) (BitVec.eq_of_toNat_eq e)
  · exact h' 0b1110011 (by decide) (BitVec.eq_of_toNat_eq e)

/-- The rows of priority 1 are pairwise disjoint: two of them differ in a bit both masks examine (R63). -/
theorem priority_one_rows_disjoint : (opcodeTable.filter (·.priority == 1)).Pairwise fun p q =>
    (p.mtch ^^^ q.mtch) &&& p.mask &&& q.mask ≠ 0 := by decide

/-- The last row fits every word, so that the table is total (R63). -/
theorem last_row_fits (w : Word) : (opcodeTable.getLast (by decide)).fits w = true := by
  show (w &&& 0#32 == 0#32) = true
  simp

/-! ## The dispatcher case by case, and the table through its fields -/

set_option maxRecDepth 4000 in
/-- Opcode 0110011: an unimplemented pair, or one of the ten with its operation (R61). -/
theorem dispatchR_cases : ∀ (f3 : BitVec 3) (f7 : BitVec 7),
    dispatchR f3 f7 = .unimpFunct ∧ implementedPairs.contains (f3, f7) = false ∨
    (f3, f7, dispatchR f3 f7) ∈ [(0b000#3, 0b0000000#7, Op.add), (0b000, 0b0100000, .sub), (0b100, 0b0000000, .xor),
      (0b110, 0b0000000, .or), (0b111, 0b0000000, .and), (0b001, 0b0000000, .sll), (0b101, 0b0000000, .srl),
      (0b101, 0b0100000, .sra), (0b010, 0b0000000, .slt), (0b011, 0b0000000, .sltu)] := by decide

set_option maxRecDepth 4000 in
/-- Opcode 0010011: funct3 selects the operation, and for 101 so does imm[11:5] (R62, R81). -/
theorem dispatchI_cases : ∀ (f3 : BitVec 3) (h : BitVec 7),
    (f3, dispatchI f3 h) ∈ [(0b000#3, Op.addi), (0b100, .xori), (0b110, .ori), (0b111, .andi), (0b001, .slli), (0b010, .slti),
      (0b011, .sltiu)] ∨
    (f3 = 0b101 ∧ h = 0 ∧ dispatchI f3 h = .srli) ∨ (f3 = 0b101 ∧ h ≠ 0 ∧ dispatchI f3 h = .srai) := by decide

/-- The fields of a word of opcode 0110011 in the R layout are the word again. -/
theorem encodeR_of_fields (w : Word) {f3 : BitVec 3} {f7 : BitVec 7} (ho : (extractBits w 6 0).toNat = 0x33)
    (h3 : extractBits w 14 12 = f3) (h7 : extractBits w 31 25 = f7) : encodeR f7 (rs2Of w) (rs1Of w) f3 (rdOf w) = w := by
  have := toNat_eq_fields w
  subst h3 h7
  apply BitVec.eq_of_toNat_eq
  rw [encodeR_toNat]
  simp only [rdOf, rs1Of, rs2Of, regOfBits_val]
  omega

/-- The fields of a word of opcode 0010011 in the I layout are the word again. -/
theorem encodeI_of_fields (w : Word) {f3 : BitVec 3} {imm : BitVec 12} (ho : (extractBits w 6 0).toNat = 0x13)
    (h3 : extractBits w 14 12 = f3) (hi : imm.toNat = (extractBits w 31 20).toNat) :
    encodeI imm (rs1Of w) f3 (rdOf w) = w := by
  have := toNat_eq_fields w
  have := imm12_eq_fields w
  subst h3
  apply BitVec.eq_of_toNat_eq
  rw [encodeI_toNat]
  simp only [rdOf, rs1Of, regOfBits_val]
  omega

/-- Every row's mask is one of four. -/
theorem row_mask : ∀ row ∈ opcodeTable,
    row.mask = 0xFE00707F#32 ∨ row.mask = 0x0000707F#32 ∨ row.mask = 0x7F#32 ∨ row.mask = 0#32 := by decide

/-- Whether a row fits depends on funct7, funct3 and the opcode alone. -/
theorem fits_congr {w w' : Word} (h7 : extractBits w 31 25 = extractBits w' 31 25)
    (h3 : extractBits w 14 12 = extractBits w' 14 12) (ho : extractBits w 6 0 = extractBits w' 6 0) {row : TableRow}
    (hrow : row ∈ opcodeTable) : row.fits w = row.fits w' := by
  have hR : w &&& 0xFE00707F#32 = w' &&& 0xFE00707F#32 := BitVec.eq_of_toNat_eq
    ((mask_funct7_toNat w).trans (by rw [h7, h3, ho]; exact (mask_funct7_toNat w').symm))
  have hI : w &&& 0x0000707F#32 = w' &&& 0x0000707F#32 := BitVec.eq_of_toNat_eq
    ((mask_funct3_toNat w).trans (by rw [h3, ho]; exact (mask_funct3_toNat w').symm))
  have hO : w &&& 0x7F#32 = w' &&& 0x7F#32 := by
    have hlt : (w' &&& 0x7F#32).toNat < 2 ^ 7 := by
      rw [BitVec.toNat_and]; exact Nat.lt_of_le_of_lt Nat.and_le_right (by decide)
    exact (mask_opcode w _ hlt).2 (by rw [ho]; exact (mask_opcode w' _ hlt).1 rfl)
  unfold TableRow.fits
  rcases row_mask row hrow with h | h | h | h <;> rw [h]
  · rw [hR]
  · rw [hI]
  · rw [hO]
  · simp

/-- The selected row depends on funct7, funct3 and the opcode alone (R63). -/
theorem selectRow_congr {w w' : Word} (h7 : extractBits w 31 25 = extractBits w' 31 25)
    (h3 : extractBits w 14 12 = extractBits w' 14 12) (ho : extractBits w 6 0 = extractBits w' 6 0) :
    selectRow w = selectRow w' := by
  have find : ∀ (p : Nat) (l : List TableRow), (∀ row ∈ l, row.fits w = row.fits w') →
      l.find? (fun row => row.priority == p && row.fits w) = l.find? (fun row => row.priority == p && row.fits w') := by
    intro p l
    induction l with
    | nil => intros; rfl
    | cons x l ih => intro h; simp only [List.find?_cons, h x (by simp), ih fun r hr => h r (by simp [hr])]
  have : ∀ p, fittingRow p w = fittingRow p w' := fun p => find p _ fun _ hrow => fits_congr h7 h3 ho hrow
  simp only [selectRow, this]

/-- The dispatched operation depends on funct7, funct3 and the opcode alone (R80). -/
theorem dispatch_congr {w w' : Word} (h7 : extractBits w 31 25 = extractBits w' 31 25)
    (h3 : extractBits w 14 12 = extractBits w' 14 12) (ho : extractBits w 6 0 = extractBits w' 6 0) :
    dispatch (describe w) = dispatch (describe w') := by
  simp only [dispatch, describe, immHi_eq, h7, h3, ho]

end Sys2Proof
end

