-- ==== Sys2Proof/Laws/Exec.lean ====
section
/-! SUPPORT. What an instruction, a system call and a step can do, said once as inversion lemmas; whole-machine claims cite them
instead of unfolding the meanings. -/

namespace Sys2Proof.Machine

/-! ## The string read -/

/-- A string of bytes other than zero with a zero byte after it is what the loop of R132 finds. -/
theorem stringFrom_eq_some {m : Memory} {bs : List Byte} {p fuel : Nat} (hl : bs.length < fuel)
    (hb : ∀ k (h : k < bs.length), m.read (p + k) = bs[k] ∧ bs[k] ≠ 0) (hz : m.read (p + bs.length) = 0) :
    stringFrom m p fuel = some bs := by
  induction bs generalizing p fuel with
  | nil =>
    obtain ⟨n, rfl⟩ : ∃ n, fuel = n + 1 := ⟨fuel - 1, by simp at hl; omega⟩
    unfold stringFrom
    rw [if_pos (by simpa using hz)]
  | cons b bs ih =>
    simp only [List.length_cons] at hl hz
    obtain ⟨n, rfl⟩ : ∃ n, fuel = n + 1 := ⟨fuel - 1, by omega⟩
    have h0 : m.read p = b ∧ b ≠ 0 := hb 0 (by simp)
    have tail : ∀ k (h : k < bs.length), m.read (p + 1 + k) = bs[k] ∧ bs[k] ≠ 0 := fun k hk => by
      have := hb (k + 1) (by simp; omega)
      simpa [Nat.add_assoc, Nat.add_comm 1] using this
    have hz' : m.read (p + 1 + bs.length) = 0 := by rw [← hz]; congr 1; omega
    unfold stringFrom
    rw [if_neg (by rw [h0.1]; exact h0.2), ih (by omega) tail hz', h0.1]
    rfl

/-- With no zero byte among the addresses it may look at, the loop finds no string. -/
theorem stringFrom_eq_none {m : Memory} {p fuel : Nat} (h : ∀ q, p ≤ q → q < p + fuel → m.read q ≠ 0) :
    stringFrom m p fuel = none := by
  induction fuel generalizing p with
  | zero => rfl
  | succ n ih =>
    unfold stringFrom
    rw [if_neg (h p (by omega) (by omega)), ih fun q h1 h2 => h q (by omega) (by omega)]
    rfl

/-! ## The system call -/

/-- ECALL is `syscall` of x17 and x10, whatever its other bits are. -/
theorem exec_ecall (u : BitVec 25) (s : State) : exec (.ecall u) s =
    .next ((s.recordOpt (syscall s.mem s.pc (s.readReg 17) (s.readReg 10)).1).finish
      (syscall s.mem s.pc (s.readReg 17) (s.readReg 10)).2) := rfl

/-- The ways a system call ends. -/
theorem syscall_cases (mem : Memory) (pc n a : Word) :
    (∃ ev, syscall mem pc n a = (some ev, .continues)) ∨ syscall mem pc n a = (none, .continues) ∨
    syscall mem pc n a = (none, .exits .exitCall10 0) ∨ syscall mem pc n a = (none, .exits .exitCall93 a) ∨
    syscall mem pc n a = (some (.diag (.stringOutOfRange a pc)), .faults) := by
  unfold syscall printString
  cases serviceOf n <;> simp
  cases readString mem a <;> simp

/-! ## An instruction -/

/-- If an instruction answers a next state, it computed into one register and went on, or reported at most one event and went
on, or, being the system call, ended the run by an exit call or the string fault. -/
theorem exec_next_cases {i : Instr} {s t : State} (h : exec i s = .next t) :
    (∃ rd v, Computes rd v s t ∧ ChecksEnd s t) ∨ (∃ es, es.length ≤ 1 ∧ Reports es s t ∧ ChecksEnd s t) ∨
    (∃ u, i = .ecall u) ∧ (Exits .exitCall10 0 s t ∨ Exits .exitCall93 (s.readReg 10) s t ∨
      t = (s.record (.diag (.stringOutOfRange (s.readReg 10) s.pc))).finish .faults) := by
  have comp : ∀ {rd v}, writeBack rd v s = .next t → (∃ rd v, Computes rd v s t ∧ ChecksEnd s t) := fun {rd v} h => by
    obtain ⟨t', h1, h2⟩ := writeBack_computes s rd v
    exact ⟨rd, v, Host.Outcome.next.inj (h1.symm.trans h) ▸ h2, writeBack_checksEnd s h⟩
  cases i with
  | ecall u =>
    rw [exec_ecall] at h
    obtain rfl := Host.Outcome.next.inj h
    rcases syscall_cases s.mem s.pc (s.readReg 17) (s.readReg 10) with ⟨ev, h⟩ | h | h | h | h <;> rw [h]
    · exact .inr (.inl ⟨[ev], by simp, finish_record_reports s ev, finish_record_checksEnd s ev⟩)
    · exact .inr (.inl ⟨[], by simp, finish_reports_nothing s, s.finish_continues_goesOn.2⟩)
    · exact .inr (.inr ⟨⟨u, rfl⟩, .inl (finish_exits_spec s _ _)⟩)
    · exact .inr (.inr ⟨⟨u, rfl⟩, .inr (.inl (finish_exits_spec s _ _))⟩)
    · exact .inr (.inr ⟨⟨u, rfl⟩, .inr (.inr rfl)⟩)
  | unimpFunct w =>
    obtain rfl := Host.Outcome.next.inj h
    exact .inr (.inl ⟨_, by simp, finish_record_reports s _, finish_record_checksEnd s _⟩)
  | unimpOpcode w =>
    obtain rfl := Host.Outcome.next.inj h
    exact .inr (.inl ⟨_, by simp, finish_record_reports s _, finish_record_checksEnd s _⟩)
  | _ => exact .inl (comp h)

/-! ## A step and a run -/

/-- A step with a next state is the execution of the fetched word by a running core. -/
theorem step_next_cases {s t : State} (h : step s = .next t) :
    s.runState = .running ∧ ∃ w, s.fetch = some w ∧ exec (decode w) s = .next t := by
  unfold step at h
  split at h
  · cases h
  · next hr =>
    split at h
    · cases h
    · next w hw => exact ⟨hr, w, hw, h⟩

/-- The fetch of a pc with four bytes of memory. -/
theorem fetch_of_inside {s : State} (h : s.pc.toNat + 4 ≤ Config.memSize) :
    s.fetch = some (BitVec.ofNat 32 (packLE (s.mem.bytes s.pc.toNat 4))) := by
  unfold State.fetch memRead
  rw [if_pos h]
  rfl

/-- A run of `k + 1` steps is one step and then a run of `k`. -/
theorem run_succ_next {M : Host.Core} {k : Nat} {s t : M.State} :
    M.run (k + 1) s = .next t ↔ ∃ u, M.step s = .next u ∧ M.run k u = .next t := by
  simp only [Host.Core.run]
  cases M.step s <;> simp

/-- What every step keeps holds after any number of steps. -/
theorem run_keeps {M : Host.Core} {P : M.State → Prop} (hstep : ∀ s t, P s → M.step s = .next t → P t) {k : Nat}
    {s t : M.State} (hs : P s) (h : M.run k s = .next t) : P t := by
  induction k generalizing s with
  | zero => exact Host.Outcome.next.inj h ▸ hs
  | succ k ih =>
    obtain ⟨u, hu, h'⟩ := run_succ_next.1 h
    exact ih (hstep s u hs hu) h'

end Sys2Proof.Machine
end

