-- ==== Sys2Proof/Laws/PerInstr.lean ====
section
/-! SUPPORT. A statement about every instruction as syntax, proved constructor by constructor: the encoder and the opcode table
agree. -/

namespace Sys2Proof.Laws.EncodeFitsRow

/-- The row of spec/opcode_table.json an instruction comes from: its match and its mask. -/
def rowOf : Instr → Word × Word
  | .add _ _ _ => (0x00000033, 0xFE00707F)
  | .sub _ _ _ => (0x40000033, 0xFE00707F)
  | .xor _ _ _ => (0x00004033, 0xFE00707F)
  | .or _ _ _ => (0x00006033, 0xFE00707F)
  | .and _ _ _ => (0x00007033, 0xFE00707F)
  | .sll _ _ _ => (0x00001033, 0xFE00707F)
  | .srl _ _ _ => (0x00005033, 0xFE00707F)
  | .sra _ _ _ => (0x40005033, 0xFE00707F)
  | .slt _ _ _ => (0x00002033, 0xFE00707F)
  | .sltu _ _ _ => (0x00003033, 0xFE00707F)
  | .addi _ _ _ => (0x00000013, 0x0000707F)
  | .xori _ _ _ => (0x00004013, 0x0000707F)
  | .ori _ _ _ => (0x00006013, 0x0000707F)
  | .andi _ _ _ => (0x00007013, 0x0000707F)
  | .slli _ _ _ _ => (0x00001013, 0x0000707F)
  | .srli _ _ _ => (0x00005013, 0xFE00707F)
  | .srai _ _ _ _ => (0x00005013, 0x0000707F)
  | .slti _ _ _ => (0x00002013, 0x0000707F)
  | .sltiu _ _ _ => (0x00003013, 0x0000707F)
  | .lui _ _ => (0x00000037, 0x0000007F)
  | .ecall _ => (0x00000073, 0x0000007F)
  | .unimpFunct _ => (0x00000033, 0x0000007F)
  | .unimpOpcode _ => (0x00000000, 0x00000000)

/-- The encoding of a well-formed instruction fits its row of the opcode table (R63). -/
def Statement (i : Instr) : Prop := i.wellFormed = true → encode i &&& (rowOf i).2 = (rowOf i).1

/-- An R-layout word fits the row of its pair. -/
theorem fitsR (f7 : BitVec 7) (rs2 rs1 : Reg) (f3 : BitVec 3) (rd : Reg) {c : Word}
    (hc : c.toNat = f7.toNat * 2 ^ 25 + f3.toNat * 2 ^ 12 + 0x33) : encodeR f7 rs2 rs1 f3 rd &&& 0xFE00707F = c := by
  obtain ⟨h7, -, -, h3, -, ho⟩ := fields_encodeR f7 rs2 rs1 f3 rd
  apply BitVec.eq_of_toNat_eq
  rw [mask_funct7_toNat, h7, h3, ho, hc]

/-- An I-layout word fits the row of its funct3. -/
theorem fitsI (imm : BitVec 12) (rs1 : Reg) (f3 : BitVec 3) (rd : Reg) {c : Word}
    (hc : c.toNat = f3.toNat * 2 ^ 12 + 0x13) : encodeI imm rs1 f3 rd &&& 0x0000707F = c := by
  obtain ⟨-, -, h3, -, ho⟩ := fields_encodeI imm rs1 f3 rd
  apply BitVec.eq_of_toNat_eq
  rw [mask_funct3_toNat, h3, ho, hc]

theorem add (rd rs1 rs2 : Reg) : Statement (.add rd rs1 rs2) := fun _ => fitsR _ _ _ _ _ rfl
theorem sub (rd rs1 rs2 : Reg) : Statement (.sub rd rs1 rs2) := fun _ => fitsR _ _ _ _ _ rfl
theorem xor (rd rs1 rs2 : Reg) : Statement (.xor rd rs1 rs2) := fun _ => fitsR _ _ _ _ _ rfl
theorem or (rd rs1 rs2 : Reg) : Statement (.or rd rs1 rs2) := fun _ => fitsR _ _ _ _ _ rfl
theorem and (rd rs1 rs2 : Reg) : Statement (.and rd rs1 rs2) := fun _ => fitsR _ _ _ _ _ rfl
theorem sll (rd rs1 rs2 : Reg) : Statement (.sll rd rs1 rs2) := fun _ => fitsR _ _ _ _ _ rfl
theorem srl (rd rs1 rs2 : Reg) : Statement (.srl rd rs1 rs2) := fun _ => fitsR _ _ _ _ _ rfl
theorem sra (rd rs1 rs2 : Reg) : Statement (.sra rd rs1 rs2) := fun _ => fitsR _ _ _ _ _ rfl
theorem slt (rd rs1 rs2 : Reg) : Statement (.slt rd rs1 rs2) := fun _ => fitsR _ _ _ _ _ rfl
theorem sltu (rd rs1 rs2 : Reg) : Statement (.sltu rd rs1 rs2) := fun _ => fitsR _ _ _ _ _ rfl
theorem addi (rd rs1 : Reg) (imm : BitVec 12) : Statement (.addi rd rs1 imm) := fun _ => fitsI _ _ _ _ rfl
theorem xori (rd rs1 : Reg) (imm : BitVec 12) : Statement (.xori rd rs1 imm) := fun _ => fitsI _ _ _ _ rfl
theorem ori (rd rs1 : Reg) (imm : BitVec 12) : Statement (.ori rd rs1 imm) := fun _ => fitsI _ _ _ _ rfl
theorem andi (rd rs1 : Reg) (imm : BitVec 12) : Statement (.andi rd rs1 imm) := fun _ => fitsI _ _ _ _ rfl
theorem slli (rd rs1 : Reg) (immHi : BitVec 7) (shamt : BitVec 5) : Statement (.slli rd rs1 immHi shamt) :=
  fun _ => fitsI _ _ _ _ rfl

/-- The row of SRLI also examines imm[11:5] (conflict C12). -/
theorem srli (rd rs1 : Reg) (shamt : BitVec 5) : Statement (.srli rd rs1 shamt) := by
  intro _
  obtain ⟨hi, -, h3, -, ho⟩ := fields_encodeI (0b0000000#7 ++ shamt) rs1 0b101 rd
  apply BitVec.eq_of_toNat_eq
  rw [show (rowOf (.srli rd rs1 shamt)).2 = 0xFE00707F from rfl, mask_funct7_toNat]
  show (extractBits (encodeI (0b0000000#7 ++ shamt) rs1 0b101 rd) 31 25).toNat * 2 ^ 25 +
    (extractBits (encodeI (0b0000000#7 ++ shamt) rs1 0b101 rd) 14 12).toNat * 2 ^ 12 +
    (extractBits (encodeI (0b0000000#7 ++ shamt) rs1 0b101 rd) 6 0).toNat = 0x5013
  rw [← immHi_eq, hi, immHi_of_append, h3, ho]
  rfl

theorem srai (rd rs1 : Reg) (immHi : BitVec 7) (shamt : BitVec 5) : Statement (.srai rd rs1 immHi shamt) :=
  fun _ => fitsI _ _ _ _ rfl
theorem slti (rd rs1 : Reg) (imm : BitVec 12) : Statement (.slti rd rs1 imm) := fun _ => fitsI _ _ _ _ rfl
theorem sltiu (rd rs1 : Reg) (imm : BitVec 12) : Statement (.sltiu rd rs1 imm) := fun _ => fitsI _ _ _ _ rfl

theorem lui (rd : Reg) (imm20 : BitVec 20) : Statement (.lui rd imm20) := fun _ =>
  (mask_opcode _ 0x37 (by decide)).2 (by
    rw [extractBits_toNat, encodeLui_toNat]
    show _ = 0x37
    omega)

theorem ecall (unexamined : BitVec 25) : Statement (.ecall unexamined) := fun _ =>
  (mask_opcode _ 0x73 (by decide)).2 (by
    rw [extractBits_toNat, encodeEcall_toNat]
    show _ = 0x73
    omega)

theorem unimpFunct (word : Word) : Statement (.unimpFunct word) := by
  intro h
  simp only [Instr.wellFormed, Bool.and_eq_true, beq_iff_eq] at h
  exact (mask_opcode word 0x33 (by decide)).2 (by
    show (word.extractLsb 6 0).toNat = 0x33
    rw [h.1]; rfl)

theorem unimpOpcode (word : Word) : Statement (.unimpOpcode word) := fun _ => by simp [rowOf]

end Sys2Proof.Laws.EncodeFitsRow
end

