-- ==== Sys2Proof/Tests/Slice0.lean ====
section
/-! SUPPORT. The model's own tests. Expected results come from the spec: spec/95_test_vectors.md (tables T1 to T11, examples S1 to
S10), the examples of the rules, and words written out field by field from spec/30_encoding.md. -/

set_option maxRecDepth 4000

namespace Sys2Proof.Tests

open Sys2Proof.Machine

/-! ## WellFormed: each check refuses an ill-formed term and accepts a well-formed one -/

/-- SRAI with w[31:25] = 0 would be SRLI's word (R121). -/
theorem test_wellFormed_srai : (Instr.srai 3 1 0 4).wellFormed = false ∧ (Instr.srai 3 1 1 4).wellFormed = true := by decide

/-- `unimpFunct` of ADD's word (an implemented pair), and of a word of another opcode (R143). -/
theorem test_wellFormed_unimpFunct : (Instr.unimpFunct 0x002081B3).wellFormed = false ∧
    (Instr.unimpFunct 0x00000063).wellFormed = false ∧ (Instr.unimpFunct 0x022081B3).wellFormed = true := by decide

/-- `unimpOpcode` of a word of each recognised opcode (R142). -/
theorem test_wellFormed_unimpOpcode : (Instr.unimpOpcode 0x00000033).wellFormed = false ∧
    (Instr.unimpOpcode 0x00000013).wellFormed = false ∧ (Instr.unimpOpcode 0x00000037).wellFormed = false ∧
    (Instr.unimpOpcode 0x00000073).wellFormed = false ∧ (Instr.unimpOpcode 0x00000063).wellFormed = true := by decide

/-! ## The codec (tables T1 and T2) -/

theorem test_extractBits : extractBits 0x002081B3 31 25 = 0 ∧ extractBits 0xABCDE2B7 31 12 = 0xABCDE ∧
    extractBits 0xDEADBEEF 15 8 = 0xBE ∧ extractBits 0xDEADBEEF 31 31 = 1 ∧ extractBits 0xDEADBEEF 31 0 = 0xDEADBEEF := by
  decide

theorem test_signExtendBits : signExtendBits 0x7FF 12 = 0x000007FF ∧ signExtendBits 0x800 12 = 0xFFFFF800 ∧
    signExtendBits 0x1FFF 12 = 0xFFFFFFFF ∧ signExtendBits 0x80 8 = 0xFFFFFF80 ∧ signExtendBits 1 1 = 0xFFFFFFFF ∧
    signExtendBits 0x7FFFFFFF 32 = 0x7FFFFFFF := by decide

/-- Table T3: every field of `0xABCDE2B7`. -/
theorem test_describe_fields : describe 0xABCDE2B7 =
    { word := 0xABCDE2B7, layout := .u, opcode := 0b0110111, rd := 5, funct3 := 0b110, rs1 := 27, rs2 := 28,
      funct7 := 0b1010101, imm12 := 0xABC, immI := 0xFFFFFABC, imm20 := 0xABCDE, immU := 0xABCDE000 } := by decide

/-! ## Decoding: a word of every constructor, written field by field from the layouts R52 to R56 and the values of R61, R62 -/

/- funct7 _ rs2 _ rs1 _ funct3 _ rd _ opcode -/
theorem test_decode_add : decode 0b0000000_00010_00001_000_00011_0110011 = .add 3 1 2 := by decide
theorem test_decode_sub : decode 0b0100000_00010_00001_000_00011_0110011 = .sub 3 1 2 := by decide
theorem test_decode_xor : decode 0b0000000_00010_00001_100_00011_0110011 = .xor 3 1 2 := by decide
theorem test_decode_or : decode 0b0000000_00010_00001_110_00011_0110011 = .or 3 1 2 := by decide
theorem test_decode_and : decode 0b0000000_00010_00001_111_00011_0110011 = .and 3 1 2 := by decide
theorem test_decode_sll : decode 0b0000000_00010_00001_001_00011_0110011 = .sll 3 1 2 := by decide
theorem test_decode_srl : decode 0b0000000_00010_00001_101_00011_0110011 = .srl 3 1 2 := by decide
theorem test_decode_sra : decode 0b0100000_00010_00001_101_00011_0110011 = .sra 3 1 2 := by decide
theorem test_decode_slt : decode 0b0000000_00010_00001_010_00011_0110011 = .slt 3 1 2 := by decide
theorem test_decode_sltu : decode 0b0000000_11111_11110_011_11101_0110011 = .sltu 29 30 31 := by decide

/- imm[11:0] _ rs1 _ funct3 _ rd _ opcode -/
theorem test_decode_addi : decode 0b111111111111_00001_000_00011_0010011 = .addi 3 1 0xFFF := by decide
theorem test_decode_xori : decode 0b100000000001_00001_100_00011_0010011 = .xori 3 1 0x801 := by decide
theorem test_decode_ori : decode 0b000011110000_00001_110_00011_0010011 = .ori 3 1 0x0F0 := by decide
theorem test_decode_andi : decode 0b111100000000_00001_111_00011_0010011 = .andi 3 1 0xF00 := by decide
theorem test_decode_slli : decode 0b0100000_00100_00001_001_00011_0010011 = .slli 3 1 0b0100000 4 := by decide
theorem test_decode_srli : decode 0b0000000_00100_00001_101_00011_0010011 = .srli 3 1 4 := by decide
theorem test_decode_srai : decode 0b0100000_00100_00001_101_00011_0010011 = .srai 3 1 0b0100000 4 ∧
    decode 0b0000001_00100_00001_101_00011_0010011 = .srai 3 1 0b0000001 4 := by decide
theorem test_decode_slti : decode 0b000000000101_00001_010_00011_0010011 = .slti 3 1 5 := by decide
theorem test_decode_sltiu : decode 0b111111111111_00001_011_00011_0010011 = .sltiu 3 1 0xFFF := by decide

/- imm[19:0] _ rd _ opcode, and unexamined _ opcode -/
theorem test_decode_lui : decode 0b10101011110011011110_00101_0110111 = .lui 5 0xABCDE := by decide
theorem test_decode_ecall : decode 0b0000000000000000000000000_1110011 = .ecall 0 ∧
    decode 0b0011000000000001000100001_1110011 = .ecall 0b0011000000000001000100001 := by decide

/- the words of table T3 that are no instruction -/
theorem test_decode_unimpFunct : decode 0x022081B3 = .unimpFunct 0x022081B3 ∧ decode 0x4020C1B3 = .unimpFunct 0x4020C1B3 := by
  decide
theorem test_decode_unimpOpcode : decode 0x00000063 = .unimpOpcode 0x00000063 ∧ decode 0 = .unimpOpcode 0 ∧
    decode 0xFFFFFFFF = .unimpOpcode 0xFFFFFFFF ∧ decode 0x0000100F = .unimpOpcode 0x0000100F := by decide

/-- `ADDI x0, x0, 5` = `0x00500013`, lowest byte first (S2, R35). -/
theorem test_decodeBytes : decodeBytes [0x13, 0x00, 0x50, 0x00, 0xFF] = .ok (.addi 0 0 5, [0xFF]) := rfl

theorem test_encodeBytes : encodeBytes (.addi 0 0 5) = [0x13, 0x00, 0x50, 0x00] := by decide

theorem test_decodeTableWord : decodeTableWord 32 0x4020D1B3 = some (.sra 3 1 2) := by decide

/-- R63: the rows taken for words of SRLI, SRAI, an unimplemented function and an unimplemented opcode. -/
theorem test_selectRow : (selectRow 0x0040D193).map (·.op) = some .srli ∧ (selectRow 0x0240D193).map (·.op) = some .srai ∧
    (selectRow 0x022081B3).map (·.op) = some .unimpFunct ∧ (selectRow 0x00000063).map (·.op) = some .unimpOpcode := by decide

/-- Lines of program P2 and of T7, with the words beside them there. -/
theorem test_assemble : (assemble (.lui 5 0xDEADC)).map encode = some 0xDEADC2B7 ∧
    (assemble (.iArith .addi 5 5 (-273))).map encode = some 0xEEF28293 ∧
    (assemble (.iShift .srai 6 5 4)).map encode = some 0x4042D313 ∧ (assemble (.iShift .srli 7 5 4)).map encode = some 0x0042D393 ∧
    (assemble (.rType .sub 12 0 5)).map encode = some 0x40500633 ∧ (assemble .ecall).map encode = some 0x00000073 ∧
    assemble (.iArith .addi 1 0 2048) = none ∧ assemble (.lui 5 0x100000) = none ∧ assemble (.rType .addi 1 0 2) = none := by decide

/-! ## One step -/

/-- The state of the vectors: `x1`, `x2` as given, `x3` = 0xDEADBEEF so that a write of 0 shows, IMAGE_LEN = 8. -/
def bench (x1 x2 : Word) : State :=
  { ((State.reset.writeReg 1 x1).writeReg 2 x2).writeReg 3 0xDEADBEEF with imageLen := 8 }

/-- One step on the word `w`: what `f` reads from the next state. -/
def after {α : Type} (w : Nat) (s : State) (f : State → α) : Option α :=
  match step (s.withFetchWord 32 w) with
  | .next t => some (f t)
  | _ => none

/-- `x3` after one step on `w`. -/
def x3After (w : Nat) (x1 x2 : Word) : Option Word := after w (bench x1 x2) (·.readReg 3)

/- table T4 -/
theorem test_add_wraps : x3After 0x002081B3 0xFFFFFFFF 1 = some 0 ∧ x3After 0x002081B3 2 3 = some 5 := by decide
theorem test_add_reads_before_write : after 0x001080B3 (bench 0x40000001 0) (·.readReg 1) = some 0x80000002 := by decide
theorem test_sub_order : x3After 0x402081B3 2 3 = some 0xFFFFFFFF ∧ x3After 0x402081B3 0x80000000 1 = some 0x7FFFFFFF := by decide
theorem test_xor : x3After 0x0020C1B3 0x0F0F0F0F 0x00FF00FF = some 0x0FF00FF0 := by decide
theorem test_or : x3After 0x0020E1B3 0x0F0F0F0F 0x00FF00FF = some 0x0FFF0FFF := by decide
theorem test_and : x3After 0x0020F1B3 0x0F0F0F0F 0x00FF00FF = some 0x000F000F := by decide
theorem test_sll_masks_amount : x3After 0x002091B3 0xDEADBEEF 37 = some 0xD5B7DDE0 ∧
    x3After 0x002091B3 0xDEADBEEF 32 = some 0xDEADBEEF := by decide
theorem test_srl_zero_fill : x3After 0x0020D1B3 0xDEADBEEF 37 = some 0x06F56DF7 ∧
    x3After 0x0020D1B3 0xDEADBEEF 0xFFFFFFE4 = some 0x0DEADBEE := by decide
theorem test_sra_sign_fill : x3After 0x4020D1B3 0xDEADBEEF 37 = some 0xFEF56DF7 ∧
    x3After 0x4020D1B3 0x80000000 31 = some 0xFFFFFFFF ∧ x3After 0x4020D1B3 0x7FFFFFFF 31 = some 0 := by decide
theorem test_slt_signed : x3After 0x0020A1B3 0x80000000 0x7FFFFFFF = some 1 ∧ x3After 0x0020A1B3 1 0xFFFFFFFF = some 0 ∧
    x3After 0x0020A1B3 5 5 = some 0 := by decide
theorem test_sltu_unsigned : x3After 0x0020B1B3 0x80000000 0x7FFFFFFF = some 0 ∧ x3After 0x0020B1B3 1 0xFFFFFFFF = some 1 ∧
    x3After 0x0020B1B3 5 5 = some 0 := by decide

/- tables T5 to T7 -/
theorem test_addi_sign_extends : x3After 0x98808193 0x12345678 0 = some 0x12345000 ∧ x3After 0x00108193 0xFFFFFFFF 0 = some 0 := by
  decide
theorem test_xori : x3After 0x8000C193 0x12345678 0 = some 0xEDCBAE78 := by decide
theorem test_ori : x3After 0x0F00E193 0x12345678 0 = some 0x123456F8 ∧ x3After 0x8000E193 0 0 = some 0xFFFFF800 := by decide
theorem test_andi : x3After 0xF000F193 0x12345678 0 = some 0x12345600 ∧ x3After 0x0FF0F193 0x12345678 0 = some 0x78 := by decide
theorem test_slli_ignores_high_bits : x3After 0xFE409193 0x12345678 0 = some 0x23456780 ∧
    x3After 0x01F09193 0xDEADBEEF 0 = some 0x80000000 := by decide
theorem test_srli : x3After 0x0040D193 0xDEADBEEF 0 = some 0x0DEADBEE ∧ x3After 0x01F0D193 0xDEADBEEF 0 = some 1 := by decide
theorem test_srai_any_high_bits : x3After 0x4040D193 0xDEADBEEF 0 = some 0xFDEADBEE ∧
    x3After 0x0240D193 0xDEADBEEF 0 = some 0xFDEADBEE ∧ x3After 0x8000D193 0xDEADBEEF 0 = some 0xDEADBEEF := by decide
theorem test_slti_signed : x3After 0x0050A193 0xFFFFFFF9 0 = some 1 ∧ x3After 0xFFF0A193 0 0 = some 0 ∧
    x3After 0x8000A193 0xFFFFF7FF 0 = some 1 := by decide

/-- The reading of decision D2 (conflict C2): `sext`. -/
theorem test_sltiu_default_sext : x3After 0xFFF0B193 0x00001000 0 = some 1 ∧ x3After 0x8000B193 0x000007FF 0 = some 1 ∧
    x3After 0xFFF0B193 0xFFFFFFFF 0 = some 0 := by decide

/-- The other mode of SLTIU_IMM_MODE on the rows of T6 that differ. -/
theorem test_sltiu_zext :
    (match execSltiuIn .zext 3 1 0xFFF (bench 0x00001000 0) with | .next t => t.readReg 3 | _ => 7) = 0 ∧
    (match execSltiuIn .zext 3 1 0x800 (bench 0x000007FF 0) with | .next t => t.readReg 3 | _ => 7) = 1 := by decide

/- table T8 and R126 -/
theorem test_lui : after 0xABCDE2B7 (bench 0 0) (·.readReg 5) = some 0xABCDE000 ∧
    after 0x800002B7 (bench 0 0) (·.readReg 5) = some 0x80000000 := by decide

/-- A write to register 0 is discarded (S2): `ADDI x0, x0, 5` and `LUI x0, 0xFFFFF`. -/
theorem test_write_to_x0 : after 0x00500013 (bench 0 0) (fun t => (t.regs[(0 : Reg)], t.pc)) = some (0, 4) ∧
    after 0xFFFFF037 (bench 0 0) (fun t => (t.regs[(0 : Reg)], t.pc)) = some (0, 4) := by decide

/-! ## The system call (table T9) -/

/-- The state of T9: `x17` and `x10` as given, the bytes `48 69 00` at address 0x100, IMAGE_LEN = 8. -/
def callBench (x17 x10 : Word) : State :=
  { (State.reset.writeReg 17 x17).writeReg 10 x10 with imageLen := 8, mem := [(0x100, 0x48), (0x101, 0x69)] }

/-- Trace, run state and pc after one ECALL. -/
def callAfter (x17 x10 : Word) : Option (List Event × RunState × Word) :=
  after 0x00000073 (callBench x17 x10) fun t => (t.trace, t.runState, t.pc)

theorem test_call_print_words : callAfter 1 0xFFFFFFF9 = some ([.emit (.int 0xFFFFFFF9)], .running, 4) ∧
    callAfter 2 7 = some ([.emit (.float 7)], .running, 4) ∧
    callAfter 34 0xFFFFFFF9 = some ([.emit (.hex 0xFFFFFFF9)], .running, 4) ∧
    callAfter 35 5 = some ([.emit (.bin 5)], .running, 4) ∧
    callAfter 36 0xFFFFFFF9 = some ([.emit (.uint 0xFFFFFFF9)], .running, 4) ∧
    callAfter 11 0x141 = some ([.emit (.char 0x41)], .running, 4) := by decide

/-- How -7 is shown by call 1 and by call 36 (R130, R137). -/
theorem test_emission_numbers : (Emission.int 0xFFFFFFF9).number = some (-7) ∧
    (Emission.uint 0xFFFFFFF9).number = some 4294967289 := by decide

theorem test_call_print_string : callAfter 4 0x100 = some ([.emit (.str [0x48, 0x69])], .running, 4) ∧
    callAfter 4 0x102 = some ([.emit (.str [])], .running, 4) := by decide

theorem test_call_string_fault :
    callAfter 4 0x00100000 = some ([.diag (.stringOutOfRange 0x00100000 0)], .halted, 0) ∧
    callAfter 4 0xFFFFFFFF = some ([.diag (.stringOutOfRange 0xFFFFFFFF 0)], .halted, 0) ∧
    after 0x00000073 (callBench 4 0x00100000) (fun t => (t.haltCause, t.cleanEnd)) = some (some .stringFault, false) := by decide

theorem test_call_exit : callAfter 10 0x63 = some ([], .halted, 0) ∧ callAfter 93 7 = some ([], .halted, 0) ∧
    after 0x00000073 (callBench 10 0x63) (fun t => (t.haltCause, t.exitCode)) = some (some .exitCall10, 0) ∧
    after 0x00000073 (callBench 93 0xFFFFFFFF) (fun t => (t.haltCause, t.exitCode)) = some (some .exitCall93, 0xFFFFFFFF) := by
  decide

theorem test_call_unknown : callAfter 0 7 = some ([], .running, 4) ∧ callAfter 5 7 = some ([], .running, 4) ∧
    callAfter 0x1000005D 7 = some ([], .running, 4) := by decide

/-- The words `0x00100073` and `0x300110F3` are the system call and write no register (R65 (c), R140). -/
theorem test_call_other_words :
    after 0x00100073 (callBench 11 0x141) (·.trace) = some [.emit (.char 0x41)] ∧
    after 0x300110F3 (callBench 5 7) (fun t => (t.readReg 1, t.readReg 10, t.trace)) = some (0, 7, []) := by decide

/-! ## Unimplemented words (table T10) and the sequencer (table T11) -/

theorem test_unimpOpcode : after 0x00000063 (bench 0 0) (fun t => (t.trace, t.pc, t.regs == (bench 0 0).regs)) =
      some ([.diag (.unimplementedOpcode 0x00000063 0)], 4, true) ∧
    after 0x00002023 (bench 0 0) (·.trace) = some [.diag (.unimplementedOpcode 0x00002023 0)] := by decide

theorem test_unimpFunct : after 0x022081B3 (bench 2 3) (fun t => (t.trace, t.pc, t.readReg 3)) =
      some ([.diag (.unimplementedFunct 0x022081B3 0)], 4, 0xDEADBEEF) ∧
    after 0x4020A1B3 (bench 2 3) (·.trace) = some [.diag (.unimplementedFunct 0x4020A1B3 0)] := by decide

/-- IMAGE_LEN = 4 and the word `0x00000063`: the diagnostic first, then the end of the image (S9). -/
theorem test_end_of_image : after 0x00000063 { bench 0 0 with imageLen := 4 }
    (fun t => (t.trace, t.pc, t.runState, t.haltCause, t.exitCode)) =
      some ([.diag (.unimplementedOpcode 0x00000063 0)], 4, .halted, some .endOfImage, 0) := by decide

/-- S7: the image is one ECALL, `x17 = 93` and `x10 = 7` are preloaded: exit code 7, pc 0, and `x10` still 7. -/
theorem test_launch_exit : (match State.launch [0x73, 0, 0, 0] (((State.reset.writeReg 17 93).writeReg 10 7).regs) with
    | .ok s => (match step s with | .next t => some (t.haltCause, t.exitCode, t.pc, t.readReg 10) | _ => none)
    | .error _ => none) = some (some .exitCall93, 7, 0, 7) := by decide

/-- S7: the dump: eighty zeros, `00000007`, forty-eight zeros, `0000005D`, one hundred and twelve zeros. -/
theorem test_dump : ((State.reset.writeReg 17 93).writeReg 10 7).dumpDigits =
    List.replicate 80 0 ++ [0, 0, 0, 0, 0, 0, 0, 7] ++ List.replicate 48 0 ++ [0, 0, 0, 0, 0, 0, 5, 13] ++
      List.replicate 112 0 := by decide

/-- IMAGE_LEN = 6, bytes `93 00 10 00 13 01`: the second word takes its high bytes from the zero fill (T11). -/
theorem test_image_padding : (match State.load [0x93, 0x00, 0x10, 0x00, 0x13, 0x01] with
    | .ok s => (match core.run 2 s with | .next t => some (t.pc, t.haltCause, t.readReg 1, t.trace) | _ => none)
    | .error _ => none) = some (8, some .endOfImage, 1, []) := by decide

theorem test_halted_stops :
    (match step { State.reset with runState := .halted } with | .fault .coreHalted => true | _ => false) = true := by decide

/-! ## Witnesses: for every statement with hypotheses, concrete inputs that meet them all, at the ends of their ranges -/

theorem witness_ExtractBitsIsShiftAndMask : (0 ≤ 0 ∧ 0 ≤ 31) ∧ (31 ≤ 31 ∧ 31 ≤ 31) ∧ (0 ≤ 31 ∧ 31 ≤ 31) := by decide

theorem witness_SignExtendReadsLowBitsAsSigned : (1 ≤ 1 ∧ 1 ≤ 32) ∧ (1 ≤ 12 ∧ 12 ≤ 32) ∧ (1 ≤ 32 ∧ 32 ≤ 32) := by decide

theorem witness_SignedImmediateRoundTrips : ((-2048 : Int) ≤ -2048 ∧ (-2048 : Int) ≤ 2047) ∧
    ((-2048 : Int) ≤ 2047 ∧ (2047 : Int) ≤ 2047) := by decide

theorem witness_TableAndDispatcherAgree : ⟨.add, 0x00000033, 0xFE00707F, 1⟩ ∈ opcodeTable ∧
    TableRow.fits ⟨.add, 0x00000033, 0xFE00707F, 1⟩ 0x002081B3 = true := by decide

theorem witness_DecodeOfEncodeIsIdentity : (Instr.add 31 0 31).wellFormed = true ∧ (Instr.srai 0 31 1 0).wellFormed = true ∧
    (Instr.unimpFunct 0x022081B3).wellFormed = true ∧ (Instr.unimpOpcode 0).wellFormed = true := by decide

/-- A line of every form, with immediates, amounts and upper immediates at the ends of their ranges. -/
theorem witness_AssemblerPlacesOperands : (assemble (.iArith .addi 1 0 (-2048))).isSome = true ∧
    (assemble (.iArith .sltiu 31 31 2047)).isSome = true ∧ (assemble (.iShift .slli 1 1 0)).isSome = true ∧
    (assemble (.iShift .srai 1 1 31)).isSome = true ∧ (assemble (.rType .sltu 31 31 31)).isSome = true ∧
    (assemble (.word 0xFFFFFFFF)).isSome = true ∧ 0xFFFFF < 2 ^ 20 ∧ 2 ^ 20 ≤ 0x100000 ∧ 0xFFFFFFFF < 2 ^ 32 ∧
    2 ^ 32 ≤ 0x100000000 := by decide

theorem witness_InstructionWordsAreLittleEndian : ([] : List Byte).length < 4 ∧ ([0x13, 0, 0] : List Byte).length < 4 := by decide

/-- Words that meet the premises about the rows of opcode 0110011, with their open fields all zero and all one. -/
theorem witness_rows_R : (0x00000033 &&& 0xFE00707F : Word) = 0x00000033 ∧ (0x01FF8FB3 &&& 0xFE00707F : Word) = 0x00000033 ∧
    (0x402081B3 &&& 0xFE00707F : Word) = 0x40000033 ∧ (0x0020C1B3 &&& 0xFE00707F : Word) = 0x00004033 ∧
    (0x0020E1B3 &&& 0xFE00707F : Word) = 0x00006033 ∧ (0x0020F1B3 &&& 0xFE00707F : Word) = 0x00007033 ∧
    (0x002091B3 &&& 0xFE00707F : Word) = 0x00001033 ∧ (0x0020D1B3 &&& 0xFE00707F : Word) = 0x00005033 ∧
    (0x4020D1B3 &&& 0xFE00707F : Word) = 0x40005033 ∧ (0x0020A1B3 &&& 0xFE00707F : Word) = 0x00002033 ∧
    (0x0020B1B3 &&& 0xFE00707F : Word) = 0x00003033 := by decide

/-- Words that meet the premises about the rows of opcodes 0010011, 0110111 and 1110011. -/
theorem witness_rows_other : (0x00000013 &&& 0x0000707F : Word) = 0x00000013 ∧ (0xFFFF8F93 &&& 0x0000707F : Word) = 0x00000013 ∧
    (0xFFF0C193 &&& 0x0000707F : Word) = 0x00004013 ∧ (0x0F00E193 &&& 0x0000707F : Word) = 0x00006013 ∧
    (0x0FF0F193 &&& 0x0000707F : Word) = 0x00007013 ∧ (0xFE409193 &&& 0x0000707F : Word) = 0x00001013 ∧
    (0x0040D193 &&& 0xFE00707F : Word) = 0x00005013 ∧ (0x0050A193 &&& 0x0000707F : Word) = 0x00002013 ∧
    (0xFFF0B193 &&& 0x0000707F : Word) = 0x00003013 ∧ (0xABCDE2B7 &&& 0x0000007F : Word) = 0x00000037 ∧
    (0x300110F3 &&& 0x0000007F : Word) = 0x00000073 := by decide

/-- The third clause of ImmediateShiftsUseShamtField, at the least and the greatest selector. -/
theorem witness_ImmediateShiftsUseShamtField :
    ((0x0200D193 &&& 0x0000707F : Word) = 0x00005013 ∧ (0x0200D193 &&& 0xFE000000 : Word) ≠ 0) ∧
    ((0xFFF0D193 &&& 0x0000707F : Word) = 0x00005013 ∧ (0xFFF0D193 &&& 0xFE000000 : Word) ≠ 0) := by decide

theorem witness_SltiuComparesUnsignedInEitherMode : (0x7FF : BitVec 12).toNat < 0x800 ∧ ¬(0x800 : BitVec 12).toNat < 0x800 := by
  decide

theorem witness_LuiThenAddiBuildsConstant : (31 : Reg) ≠ 0 ∧ (1 : Reg) ≠ 0 := by decide

theorem witness_PrintCallsEmitOneEvent : (callBench 1 0).readReg 17 = 1 ∧ (callBench 2 0).readReg 17 = 2 ∧
    (callBench 11 0xFFFFFFFF).readReg 17 = 11 ∧ (callBench 34 0).readReg 17 = 34 ∧ (callBench 35 0).readReg 17 = 35 ∧
    (callBench 36 0).readReg 17 = 36 := by decide

/-- A string of two bytes. -/
theorem witness_PrintStringEmitsOrFaults_string : (callBench 4 0x100).readReg 17 = 4 ∧
    ((callBench 4 0x100).readReg 10).toNat + ([0x48, 0x69] : List Byte).length < Config.memSize ∧
    (∀ k (h : k < ([0x48, 0x69] : List Byte).length),
      (callBench 4 0x100).mem.read (((callBench 4 0x100).readReg 10).toNat + k) = ([0x48, 0x69] : List Byte)[k] ∧
      ([0x48, 0x69] : List Byte)[k] ≠ 0) ∧
    (callBench 4 0x100).mem.read (((callBench 4 0x100).readReg 10).toNat + ([0x48, 0x69] : List Byte).length) = 0 := by
  decide

/-- The empty string at the last address of memory. -/
theorem witness_PrintStringEmitsOrFaults_empty : (callBench 4 0xFFFFF).readReg 17 = 4 ∧
    ((callBench 4 0xFFFFF).readReg 10).toNat + ([] : List Byte).length < Config.memSize ∧
    (callBench 4 0xFFFFF).mem.read (((callBench 4 0xFFFFF).readReg 10).toNat + ([] : List Byte).length) = 0 := by decide

/-- A state whose last byte of memory is not zero. -/
def openEnd : State := { callBench 4 0xFFFFF with mem := [(0xFFFFF, 0x21)] }

/-- No terminator: from the last address, where the byte there is not zero, and from the first address outside memory. -/
theorem witness_PrintStringEmitsOrFaults_fault : openEnd.readReg 17 = 4 ∧
    (∀ p, (openEnd.readReg 10).toNat ≤ p → p < Config.memSize → openEnd.mem.read p ≠ 0) ∧
    (callBench 4 0x100000).readReg 17 = 4 ∧
    (∀ p, ((callBench 4 0x100000).readReg 10).toNat ≤ p → p < Config.memSize → (callBench 4 0x100000).mem.read p ≠ 0) := by
  refine ⟨by decide, fun p h1 h2 => ?_, by decide, fun p h1 h2 => ?_⟩
  · have e : (openEnd.readReg 10).toNat = 0xFFFFF := by decide
    rw [e] at h1
    rw [Config.memSize] at h2
    obtain rfl : p = 0xFFFFF := by omega
    decide
  · have e : ((callBench 4 0x100000).readReg 10).toNat = 0x100000 := by decide
    rw [e] at h1
    rw [Config.memSize] at h2
    omega

theorem witness_ExitCallsHaltTheCore : (callBench 10 7).readReg 17 = 10 ∧ (callBench 93 0xFFFFFFFF).readReg 17 = 93 := by decide

/-- Unknown numbers: zero, one between listed ones, the least above them all, 93 with a high bit set, the greatest word. -/
theorem witness_UnknownCallIsSilentNoOp : [(0 : Word), 3, 94, 0x1000005D, 0xFFFFFFFF].all (fun n =>
    decide (((callBench n 0).readReg 17).toNat ∉ [1, 2, 4, 10, 11, 34, 35, 36, 93])) = true := by decide

theorem witness_UnimplementedOpcodeIsReported : [(0 : Word), 0x00000063, 0xFFFFFFFF].all (fun w =>
    decide (w &&& 0x7F ≠ 0x33 ∧ w &&& 0x7F ≠ 0x13 ∧ w &&& 0x7F ≠ 0x37 ∧ w &&& 0x7F ≠ 0x73)) = true := by decide

theorem witness_UnimplementedFunctionIsReported : [(0x022081B3 : Word), 0x4020C1B3, 0xFFFFFFB3].all (fun w => decide (
    w &&& 0x7F = 0x33 ∧ w &&& 0xFE00707F ∉ [0x00000033#32, 0x40000033#32, 0x00004033#32, 0x00006033#32, 0x00007033#32,
      0x00001033#32, 0x00005033#32, 0x40005033#32, 0x00002033#32, 0x00003033#32])) = true := by decide

/-- Executions with a next state: one that goes on, one that reaches the end of the image, one that exits, one that faults. For the
statements whose premise is `exec i s = .next t`. -/
theorem witness_exec_next : (∃ t, exec (.addi 3 1 5) (bench 1 2) = .next t ∧ t.runState = .running) ∧
    (∃ t, exec (.addi 3 1 5) { bench 1 2 with imageLen := 4 } = .next t ∧ t.runState = .halted) ∧
    (∃ t, exec (.ecall 0) (callBench 93 7) = .next t ∧ (callBench 93 7).runState = .running ∧ t.runState = .halted ∧
      t.haltCause = some .exitCall93) ∧
    (∃ t, exec (.ecall 0) (callBench 4 0x100000) = .next t ∧ t.faulted = true) :=
  ⟨⟨_, rfl, by decide⟩, ⟨_, rfl, by decide⟩, ⟨_, rfl, by decide⟩, ⟨_, rfl, by decide⟩⟩

/-- Both clauses of EndOfImageHaltsTheCore: the pc reaches IMAGE_LEN exactly. -/
theorem witness_EndOfImageHaltsTheCore : ∃ t, exec (.addi 3 1 5) { bench 1 2 with imageLen := 4 } = .next t ∧
    t.pc = (bench 1 2).pc + 4 ∧ 4 ≤ ((bench 1 2).pc + 4).toNat ∧ t.haltCause = some .endOfImage ∧
    (bench 1 2).haltCause ≠ some .endOfImage := ⟨_, rfl, by decide⟩

/-- A step with a next state: for MemoryIsConstant, TraceGrowsByAtMostOneEvent and ExitCodeWrittenOnlyAtHalt. -/
theorem witness_step_next : ∃ t, step (bench 1 2) = .next t := ⟨_, rfl⟩

/-- Both sides of HaltedIsAbsorbing occur. -/
theorem witness_HaltedIsAbsorbing : ({ State.reset with runState := .halted } : State).runState = .halted ∧
    State.reset.runState ≠ .halted := by decide

/-- A running core whose last word of memory is an instruction (R38: the greatest pc of a running core). -/
def lastWord : State :=
  { State.reset with pc := 0xFFFFC, mem := [(0xFFFFC, 0x13), (0xFFFFE, 0x50)] }

theorem witness_StepRunsDecodedInstruction : lastWord.runState = .running ∧ lastWord.pc.toNat + 4 ≤ Config.memSize ∧
    decodeBytes [lastWord.mem.read lastWord.pc.toNat, lastWord.mem.read (lastWord.pc.toNat + 1),
      lastWord.mem.read (lastWord.pc.toNat + 2), lastWord.mem.read (lastWord.pc.toNat + 3)] = .ok (.addi 0 0 5, []) :=
  ⟨rfl, by decide, rfl⟩

theorem witness_PlacedWordIsRunNext : lastWord.mem.wf = true ∧ lastWord.pc.toNat + 4 ≤ Config.memSize ∧
    State.reset.mem.wf = true ∧ State.reset.pc.toNat + 4 ≤ Config.memSize := by decide

/-- `ADD x3, x1, x2` does not read `x5`; LUI does not read `x27`, its w[19:15]; the system call does not read `x1`; nor does ADD read its own `x3`. -/
theorem witness_UnreadRegistersHaveNoInfluence : [((0x002081B3 : Word), (5 : Reg)), (0x002081B3, 3), (0xABCDE2B7, 27),
      (0x00000073, 1), (0x00000063, 0)].all (fun p => decide (
    ¬((controls (dispatch (describe p.1))).readsRs1 = true ∧ p.2 = rs1Of p.1) ∧
    ¬((controls (dispatch (describe p.1))).readsRs2 = true ∧ p.2 = rs2Of p.1) ∧
    ¬(dispatch (describe p.1) = .ecall ∧ (p.2 = 17 ∨ p.2 = 10)))) = true := by decide

/-- The inner premise of the same statement: the destination is the changed register. -/
theorem witness_UnreadRegistersHaveNoInfluence_rd :
    (controls (dispatch (describe 0x002081B3))).writesRd = true ∧ (3 : Reg) = rdOf 0x002081B3 := by decide

/-- The guard of its last clause: a step that does not end in the string fault. -/
theorem witness_UnreadRegistersHaveNoInfluence_exit : ∃ t, exec (decode 0x00000073) (callBench 93 7) = .next t ∧
    t.haltCause ≠ some .stringFault := ⟨_, rfl, by decide⟩

theorem witness_OnlyTheDestinationChanges : ∃ t, exec (decode 0x002081B3) (bench 2 3) = .next t ∧
    t.readReg 3 ≠ (bench 2 3).readReg 3 := ⟨_, rfl, by decide⟩

theorem lastWord_inv : lastWord.Inv := by constructor <;> decide

/-- The invariant and a running core at both ends of the pc's range. -/
theorem witness_RunningCoreAlwaysSteps : (lastWord.Inv ∧ lastWord.runState = .running) ∧
    (State.reset.Inv ∧ State.reset.runState = .running) :=
  ⟨⟨lastWord_inv, rfl⟩, by constructor <;> decide, rfl⟩

theorem witness_StepKeepsTheBoundaryInvariant : lastWord.Inv ∧ ∃ t, step lastWord = .next t := ⟨lastWord_inv, _, rfl⟩

/-- EveryRunHalts: its premises, and a run of one step after which the core still runs. -/
theorem witness_EveryRunHalts : (lastWord.Inv ∧ lastWord.runState = .running) ∧
    (State.reset.Inv ∧ State.reset.runState = .running) ∧ ∃ t, core.run 1 State.reset = .next t ∧ t.runState = .running :=
  ⟨⟨lastWord_inv, rfl⟩, ⟨by constructor <;> decide, rfl⟩, _, rfl, by decide⟩

/-- Images of one byte, of MEM_SIZE bytes, of none, and of one byte too many. -/
theorem witness_LaunchPlacesTheImage :
    (1 ≤ ([0x13] : List Byte).length ∧ ([0x13] : List Byte).length ≤ Config.memSize) ∧
    (∃ image : List Byte, 1 ≤ image.length ∧ image.length ≤ Config.memSize) ∧
    ([] : List Byte).length = 0 ∧ (∃ image : List Byte, Config.memSize < image.length) :=
  ⟨by decide, ⟨List.replicate Config.memSize 0, by rw [List.length_replicate]; decide⟩, rfl,
    ⟨List.replicate (Config.memSize + 1) 0, by rw [List.length_replicate]; decide⟩⟩

/-- The inner premise of the same statement. -/
theorem witness_LaunchPlacesTheImage_register : (31 : Reg) ≠ 0 := by decide

theorem witness_DumpShowsEveryRegister : (7 : Nat) < 8 := by decide

/-- In range up to the last byte, and out of range by one byte. -/
theorem witness_MemWriteIsReadBack : lastWord.mem.wf = true ∧ 0xFFFFC + 4 ≤ Config.memSize ∧ Config.memSize < 0xFFFFD + 4 := by decide

end Sys2Proof.Tests
end

section
/-! PROOFS, family 10_state. What a completed execution leaves at the step boundary, said once, and the statements about the
step that follow from it: the invariant, and what may happen to the run state, halt cause and exit code. -/

namespace Sys2Proof.Machine

/-- The pc stays and the core has halted by an exit call or the string fault (R94, R95). -/
def StopsAtCall (s t : State) : Prop :=
  t.pc = s.pc ∧ (HaltedWith .exitCall10 0 t ∨ HaltedWith .exitCall93 (s.readReg 10) t ∨ t.faulted = true)

theorem State.faulted_iff {t : State} :
    t.faulted = true ↔ t.runState = .halted ∧ t.haltCause = some .stringFault := by simp [State.faulted]

/-- Of a core that stopped at a call it matters to the invariant only that it is HALTED with some cause. -/
theorem StopsAtCall.halted {s t : State} (h : StopsAtCall s t) : t.runState = .halted ∧ t.haltCause ≠ none := by
  obtain ⟨-, ⟨hrun, hcause, -⟩ | ⟨hrun, hcause, -⟩ | hfault⟩ := h
  · exact ⟨hrun, by simp [hcause]⟩
  · exact ⟨hrun, by simp [hcause]⟩
  · obtain ⟨hrun, hcause⟩ := State.faulted_iff.1 hfault
    exact ⟨hrun, by simp [hcause]⟩

theorem Advances.sameImage {s t : State} (h : Advances s t) : SameImage s t := h.2.2.1

/-- Every completed execution forces register 0 to zero, keeps the image, and either goes on or stops at a call. -/
theorem exec_next_boundary {i : Instr} {s t : State} (h : exec i s = .next t) :
    t.regs[(0 : Reg)] = 0 ∧ SameImage s t ∧ (GoesOn s t ∨ StopsAtCall s t) := by
  rcases exec_next_cases h with ⟨rd, v, ⟨⟨-, -, -, hx0⟩, -, hadv⟩, hend⟩ |
    ⟨es, -, ⟨⟨-, hx0⟩, -, hadv⟩, hend⟩ |
    ⟨-, ⟨⟨-, hx0⟩, -, hpc, hhalt, himg, -⟩ | ⟨⟨-, hx0⟩, -, hpc, hhalt, himg, -⟩ | hfault⟩
  · exact ⟨hx0, hadv.sameImage, .inl ⟨hadv, hend⟩⟩
  · exact ⟨hx0, hadv.sameImage, .inl ⟨hadv, hend⟩⟩
  · exact ⟨hx0, himg, .inr ⟨hpc, .inl hhalt⟩⟩
  · exact ⟨hx0, himg, .inr ⟨hpc, .inr (.inl hhalt)⟩⟩
  · subst hfault
    obtain ⟨hrun, hcause, hpc⟩ := finish_faults_halts (s.record (.diag (.stringOutOfRange (s.readReg 10) s.pc)))
    exact ⟨State.finish_x0 _ _, ⟨fun a => by simp, by simp, by simp⟩,
      .inr ⟨hpc, .inr (.inr (State.faulted_iff.2 ⟨hrun, hcause⟩))⟩⟩

/-- A step that goes on is still short of the end of the image and runs as before, or has halted there with code 0. -/
theorem GoesOn.run_cases {s t : State} (h : GoesOn s t) :
    ((s.pc + 4).toNat < s.imageLen ∧ SameRun s t) ∨ HaltedWith .endOfImage 0 t := by
  obtain ⟨⟨-, hrun, -, -⟩, hend⟩ := h
  rcases Nat.lt_or_ge (s.pc + 4).toNat s.imageLen with hlt | hge
  · exact .inl ⟨hlt, hrun hlt⟩
  · exact .inr (hend hge)

/-! ## The invariant of the step boundary -/

/-- The advance of a running core neither wraps nor passes MEM_SIZE: the pc and MEM_SIZE are multiples of 4, and the pc is below
IMAGE_LEN, so that four bytes of memory are left. -/
theorem State.Inv.advanced_pc {s : State} (hs : s.Inv) (hrun : s.runState = .running) :
    (s.pc + 4).toNat = s.pc.toNat + 4 ∧ s.pc.toNat + 4 ≤ Config.memSize := by
  have haligned := hs.pc_aligned
  have hinside := hs.running_in_image hrun
  have hfits := hs.image_fits
  simp only [Config.memSize] at hfits ⊢
  rw [BitVec.toNat_add, show (4 : Word).toNat = 4 from rfl]
  omega

/-- A HALTED state with a cause meets the invariant when register 0, the pc and the image do: the clauses about a running core say
nothing of it. -/
theorem State.Inv.of_halted {s t : State} (hs : s.Inv) (hx0 : t.regs[(0 : Reg)] = 0) (himg : SameImage s t)
    (haligned : t.pc.toNat % 4 = 0) (hbounded : t.pc.toNat ≤ Config.memSize) (hrun : t.runState = .halted)
    (hcause : t.haltCause ≠ none) : t.Inv := by
  obtain ⟨-, hmem, hlen⟩ := himg
  exact {
    x0_zero := hx0
    pc_aligned := haligned
    pc_bounded := hbounded
    running_in_image := fun h => by simp [hrun] at h
    halted_has_cause := fun _ => hcause
    running_no_cause := fun h => by simp [hrun] at h
    image_nonempty := hlen ▸ hs.image_nonempty
    image_fits := hlen ▸ hs.image_fits
    mem_wf := hmem ▸ hs.mem_wf }

/-- Going on keeps the invariant of a running core. -/
theorem State.Inv.of_goesOn {s t : State} (hs : s.Inv) (hrun : s.runState = .running) (hx0 : t.regs[(0 : Reg)] = 0)
    (h : GoesOn s t) : t.Inv := by
  obtain ⟨hnowrap, hbounded⟩ := hs.advanced_pc hrun
  have haligned := hs.pc_aligned
  obtain ⟨hpc, -, himg, -⟩ := h.1
  have htpc : t.pc.toNat = s.pc.toNat + 4 := by rw [hpc, hnowrap]
  rcases h.run_cases with ⟨hlt, hsame, hcause, -⟩ | ⟨hhalt, hcause, -⟩
  · obtain ⟨-, hmem, hlen⟩ := himg
    have htrun : t.runState = .running := hsame.trans hrun
    exact {
      x0_zero := hx0
      pc_aligned := by omega
      pc_bounded := by omega
      running_in_image := fun _ => by rw [hpc, hlen]; exact hlt
      halted_has_cause := fun h => by simp [htrun] at h
      running_no_cause := fun _ => hcause.trans (hs.running_no_cause hrun)
      image_nonempty := hlen ▸ hs.image_nonempty
      image_fits := hlen ▸ hs.image_fits
      mem_wf := hmem ▸ hs.mem_wf }
  · exact hs.of_halted hx0 himg (by omega) (by omega) hhalt (by simp [hcause])

/-- Stopping at a call keeps the invariant: the pc is where it was. -/
theorem State.Inv.of_stopsAtCall {s t : State} (hs : s.Inv) (hx0 : t.regs[(0 : Reg)] = 0) (himg : SameImage s t)
    (h : StopsAtCall s t) : t.Inv :=
  hs.of_halted hx0 himg (h.1 ▸ hs.pc_aligned) (h.1 ▸ hs.pc_bounded) h.halted.1 h.halted.2

/-- Settles O43: the step of a running core goes on or stops at a call, and either keeps the invariant. -/
theorem stepKeepsTheBoundaryInvariant : Obligations.StepKeepsTheBoundaryInvariant := by
  intro s t hs h
  obtain ⟨hrun, w, -, hexec⟩ := step_next_cases h
  obtain ⟨hx0, himg, hgo | hstop⟩ := exec_next_boundary hexec
  · exact hs.of_goesOn hrun hx0 hgo
  · exact hs.of_stopsAtCall hx0 himg hstop

/-- Settles O37: a step that goes on leaves the run as it was or halts at the end of the image; the other three halts are those
of the calls. -/
theorem exitCodeWrittenOnlyAtHalt : Obligations.ExitCodeWrittenOnlyAtHalt := by
  intro s t h
  obtain ⟨-, w, -, hexec⟩ := step_next_cases h
  obtain ⟨-, -, hgo | ⟨-, hcall⟩⟩ := exec_next_boundary hexec
  · rcases hgo.run_cases with ⟨-, hsame⟩ | hend
    · exact .inl hsame
    · exact .inr (.inl hend)
  · exact .inr (.inr hcall)

/-! ## Reset -/

theorem State.reset_regs_get (r : Reg) : State.reset.regs[r] = 0 := by simp [State.reset]

@[simp] theorem State.readReg_reset (r : Reg) : State.reset.readReg r = 0 := by
  simp only [State.readReg, State.reset_regs_get, ite_self]

/-- Settles O44: the reset state is a running core at pc 0 of an image as long as memory. -/
theorem resetMeetsTheBoundaryInvariant : Obligations.ResetMeetsTheBoundaryInvariant where
  x0_zero := State.reset_regs_get 0
  pc_aligned := rfl
  pc_bounded := Nat.zero_le _
  running_in_image := fun _ => by decide
  halted_has_cause := fun h => nomatch h
  running_no_cause := fun _ => rfl
  image_nonempty := by decide
  image_fits := Nat.le_refl _
  mem_wf := rfl

/-- Settles O46: each reset value is a field of `State.reset`, and the reset input keeps the fields of the image. -/
theorem resetLeavesTheSpecValues : Obligations.ResetLeavesTheSpecValues :=
  ⟨fun r => ⟨State.readReg_reset r, State.reset_regs_get r⟩, rfl, rfl, rfl, rfl, rfl, Memory.read_nil,
    fun _ => ⟨rfl, rfl, rfl, rfl, rfl, rfl, fun _ => rfl, rfl, rfl⟩⟩

end Sys2Proof.Machine
end

section
/-! PROOFS, family 10_state. The executed word as the datapath of R98, and what its control signals say about registers: only
`x[rd]` can change, and a register no port reads has no influence. -/

namespace Sys2Proof.Machine

/-! ## Execution is the datapath -/

/-- The shifts mask the whole I immediate to the shamt field (R58, R84). -/
theorem shiftAmount_immIOf (imm : BitVec 12) :
    shiftAmount (immIOf imm) = shiftAmount (shamtOperand (imm.extractLsb 4 0)) := by
  have hi := imm.isLt
  rw [shiftAmount_shamt, shiftAmount_eq, immIOf_toNat, BitVec.extractLsb, BitVec.extractLsb'_toNat,
    Nat.shiftRight_zero]
  split_ifs <;> omega

/-- The shifts see of their second operand only the amount (R83). -/
theorem alu_shift_congr {f : AluOp} (hf : f = .sll ∨ f = .srl ∨ f = .sra) (a : Word) {b c : Word}
    (h : shiftAmount b = shiftAmount c) : alu f a b = alu f a c := by
  rcases hf with rfl | rfl | rfl <;> simp only [alu, h]

/-- A shift by the shamt field is the shift by the whole I immediate. -/
theorem alu_shift_shamtOperand {f : AluOp} (hf : f = .sll ∨ f = .srl ∨ f = .sra) (a : Word) (imm : BitVec 12) :
    alu f a (shamtOperand (imm.extractLsb 4 0)) = alu f a (immIOf imm) :=
  alu_shift_congr hf a (shiftAmount_immIOf imm).symm

/-- The state and end of one execution, with the operation's ports, result and side effect named (R98). -/
theorem datapathStep_eq (s : State) (w : Word) : datapathStep s w =
    ((writePort (controls (dispatch (describe w))).writesRd (rdOf w) (aluResult (dispatch (describe w)) (describe w) s)
      s).recordOpt (sideEffect (dispatch (describe w)) (describe w) s).1).finish
      (sideEffect (dispatch (describe w)) (describe w) s).2 := rfl

/-- The meaning of each instruction is the datapath under the operation's control signals. The three shifts by an immediate are
written with the shamt field, where the datapath routes the whole immediate. -/
theorem exec_decode_eq_datapathStep (s : State) (w : Word) : exec (decode w) s = .next (datapathStep s w) := by
  rw [datapathStep_eq, decode]
  generalize dispatch (describe w) = op
  cases op with
  | slli => exact congrArg (writeBack _ · s) (alu_shift_shamtOperand (.inl rfl) _ _)
  | srli => exact congrArg (writeBack _ · s) (alu_shift_shamtOperand (.inr (.inl rfl)) _ _)
  | srai => exact congrArg (writeBack _ · s) (alu_shift_shamtOperand (.inr (.inr rfl)) _ _)
  | _ => rfl

/-- Neither the event nor the end of a step is seen by a read: a register reads as the write port left it. -/
theorem readReg_datapathStep (s : State) (w : Word) (q : Reg) : (datapathStep s w).readReg q =
    (writePort (controls (dispatch (describe w))).writesRd (rdOf w) (aluResult (dispatch (describe w)) (describe w) s)
      s).readReg q := by
  rw [datapathStep_eq, State.readReg_finish, State.readReg_recordOpt]

/-- Settles O42: a register the write port does not write reads as before. -/
theorem onlyTheDestinationChanges : Obligations.OnlyTheDestinationChanges := by
  intro w s t h r hchanged
  obtain rfl := Host.Outcome.next.inj ((exec_decode_eq_datapathStep s w).symm.trans h)
  by_contra hport
  exact hchanged ((readReg_datapathStep s w r).trans (readReg_writePort _ s hport))

/-! ## Two runs that differ in one register -/

/-- What the write port writes reads alike whatever the register file was. -/
theorem readReg_writeReg_same_congr (s t : State) (r : Reg) (v : Word) :
    (t.writeReg r v).readReg r = (s.writeReg r v).readReg r := by
  by_cases hr : r = 0
  · rw [hr, State.readReg_zero, State.readReg_zero]
  · rw [State.readReg_writeReg_same t hr, State.readReg_writeReg_same s hr]

/-- The write port keeps an agreement on a register. -/
theorem readReg_writePort_congr {s t : State} {q : Reg} (writesRd : Bool) (rd : Reg) (v : Word)
    (h : t.readReg q = s.readReg q) : (writePort writesRd rd v t).readReg q = (writePort writesRd rd v s).readReg q := by
  by_cases hport : writesRd = true ∧ q = rd
  · obtain ⟨rfl, rfl⟩ := hport
    exact readReg_writeReg_same_congr s t q v
  · rw [readReg_writePort v t hport, readReg_writePort v s hport, h]

/-- The states agree on every field but the register file. -/
def SameButRegs (s t : State) : Prop := ∃ regs, t = { s with regs := regs }

theorem sameButRegs_writeReg (s : State) (r : Reg) (v : Word) : SameButRegs s (s.writeReg r v) := ⟨_, rfl⟩

theorem SameButRegs.writePort {s t : State} (h : SameButRegs s t) (writesRd : Bool) (rd : Reg) (v : Word) :
    SameButRegs (writePort writesRd rd v s) (writePort writesRd rd v t) := by
  obtain ⟨regs, rfl⟩ := h
  cases writesRd <;> exact ⟨_, rfl⟩

theorem SameButRegs.recordOpt {s t : State} (h : SameButRegs s t) (e : Option Event) :
    SameButRegs (s.recordOpt e) (t.recordOpt e) := by
  obtain ⟨regs, rfl⟩ := h
  cases e <;> exact ⟨_, rfl⟩

/-- The end of a step depends on no register. -/
theorem SameButRegs.finish {s t : State} (h : SameButRegs s t) (e : OpEnd) :
    (t.finish e).pc = (s.finish e).pc ∧ (t.finish e).runState = (s.finish e).runState ∧
      (t.finish e).haltCause = (s.finish e).haltCause ∧ (t.finish e).exitCode = (s.finish e).exitCode ∧
      (t.finish e).trace = (s.finish e).trace := by
  obtain ⟨regs, rfl⟩ := h
  obtain ⟨hpc, hrun, hcause, hcode⟩ :=
    finish_congr e (a := { s with regs := regs }) (b := s) rfl rfl rfl rfl rfl rfl
  exact ⟨hpc, hrun, hcause, hcode, by simp⟩

/-- The result does not see a register that neither read port reads. -/
theorem aluResult_writeReg {op : Op} {d : Descriptor} {r : Reg} (s : State) (v : Word)
    (h1 : ¬((controls op).readsRs1 = true ∧ r = d.rs1)) (h2 : ¬((controls op).readsRs2 = true ∧ r = d.rs2)) :
    aluResult op d (s.writeReg r v) = aluResult op d s := by
  unfold aluResult
  rw [readPort_writeReg s v h1, readPort_writeReg s v h2]

/-- The event and the end of an operation depend on no register but x17 and x10 of the system call. -/
theorem sideEffect_writeReg {op : Op} (d : Descriptor) {r : Reg} (s : State) (v : Word)
    (h : ¬(op = .ecall ∧ (r = 17 ∨ r = 10))) : sideEffect op d (s.writeReg r v) = sideEffect op d s := by
  cases op with
  | ecall =>
    have hnum : (s.writeReg r v).syscallNum = s.syscallNum :=
      s.readReg_writeReg_ne (fun e => h ⟨rfl, .inl e.symm⟩) v
    have harg : (s.writeReg r v).syscallArg = s.syscallArg :=
      s.readReg_writeReg_ne (fun e => h ⟨rfl, .inr e.symm⟩) v
    simp only [sideEffect, hnum, harg, State.writeReg_mem, State.writeReg_pc]
  | _ => rfl

/-- Settles O41: with the register unread, both runs write the same result, record the same event and end alike. -/
theorem unreadRegistersHaveNoInfluence : Obligations.UnreadRegistersHaveNoInfluence := by
  intro w s r v h1 h2 hcall
  have hresult := aluResult_writeReg (d := describe w) s v h1 h2
  have heffect := sideEffect_writeReg (describe w) s v hcall
  refine ⟨_, _, exec_decode_eq_datapathStep s w, exec_decode_eq_datapathStep (s.writeReg r v) w, fun q hq => ?_,
    fun hwrites hr => ?_, ?_⟩
  · rw [readReg_datapathStep, readReg_datapathStep, hresult]
    exact readReg_writePort_congr _ _ _ (s.readReg_writeReg_ne hq v)
  · rw [readReg_datapathStep, readReg_datapathStep, hresult, hwrites, hr]
    exact readReg_writeReg_same_congr s _ (rdOf w) _
  · rw [datapathStep_eq, datapathStep_eq, hresult, heffect]
    obtain ⟨hpc, hrun, hcause, hcode, htrace⟩ :=
      (((sameButRegs_writeReg s r v).writePort _ _ _).recordOpt _).finish _
    exact ⟨hpc, hrun, hcause, htrace, fun _ => hcode⟩

end Sys2Proof.Machine
end

section
/-! PROOFS, family 20_memory. Bytes in address order as one little-endian number, what `MemRead` and `MemWrite` answer in and out of
range, and the statements about memory over a step and at launch. -/

namespace Sys2Proof

/-! ## The byte order -/

/-- Four bytes in address order side by side, the byte of the lowest address least significant (R35, R36). -/
theorem ofNat_packLE_four (b0 b1 b2 b3 : Byte) : BitVec.ofNat 32 (packLE [b0, b1, b2, b3]) = b3 ++ b2 ++ b1 ++ b0 := by
  have hword : (b3 ++ b2 ++ b1 ++ b0).toNat = packLE [b0, b1, b2, b3] := by
    simp only [toNat_append_add, packLE]
    omega
  rw [← hword, BitVec.ofNat_toNat, BitVec.setWidth_eq]

/-- Fewer than four bytes hold no instruction (R50). -/
theorem decodeBytes_truncated : ∀ {bs : List Byte}, bs.length < 4 → decodeBytes bs = .error .truncated
  | [], _ | [_], _ | [_, _], _ | [_, _, _], _ => rfl
  | _ :: _ :: _ :: _ :: rest, h => absurd h (by simp)

/-- Settles O8: the number the decoder packs from four bytes is the word they make side by side. -/
theorem instructionWordsAreLittleEndian : Obligations.InstructionWordsAreLittleEndian := by
  refine ⟨fun b0 b1 b2 b3 rest => ?_, fun bs => decodeBytes_truncated⟩
  rw [decodeBytes, ofNat_packLE_four]

end Sys2Proof

namespace Sys2Proof.Machine

/-! ## MemRead and MemWrite -/

theorem memRead_inside {m : Memory} {a n : Nat} (h : a + n ≤ Config.memSize) :
    memRead m a n = some (packLE (m.bytes a n)) := if_pos h

theorem memRead_outside {m : Memory} {a n : Nat} (h : Config.memSize < a + n) : memRead m a n = none :=
  if_neg (Nat.not_le.2 h)

theorem memWrite_outside {m : Memory} {a n v : Nat} (h : Config.memSize < a + n) : memWrite m a n v = none :=
  if_neg (Nat.not_le.2 h)

/-- Settles O49: the bytes a write in range leaves are the low bytes of the value, and packing them gives its remainder. -/
theorem memWriteIsReadBack : Obligations.MemWriteIsReadBack := by
  refine fun m a n v hm => ⟨fun hin => ?_, fun hout => ⟨memRead_outside hout, memWrite_outside hout⟩⟩
  obtain ⟨m', hwrite, hwf, hbytes, hframe⟩ := memWrite_spec (v := v) hin hm
  exact ⟨m', hwrite, hwf, by rw [memRead_inside hin, hbytes, packLE_unpackLE], hframe⟩

/-! ## Memory over a step -/

/-- Settles O34: every completed execution keeps the image. -/
theorem memoryIsConstant : Obligations.MemoryIsConstant := by
  intro s t h
  obtain ⟨-, w, -, hexec⟩ := step_next_cases h
  obtain ⟨-, himg, -⟩ := exec_next_boundary hexec
  exact himg

/-- A running core whose fetch is inside memory steps: it fetches a word, and every word executes. -/
theorem step_answers_of_inside {s : State} (hrun : s.runState = .running) (hin : s.pc.toNat + 4 ≤ Config.memSize) :
    ∃ t, step s = .next t := by
  simp only [step, hrun, fetch_of_inside hin, exec_decode_eq_datapathStep]
  exact ⟨_, rfl⟩

/-- Settles O45: a running pc is aligned and below IMAGE_LEN, so four bytes of memory are left at it. -/
theorem runningCoreAlwaysSteps : Obligations.RunningCoreAlwaysSteps := by
  intro s hs hrun
  obtain ⟨-, hin⟩ := hs.advanced_pc hrun
  obtain ⟨t, hstep⟩ := step_answers_of_inside hrun hin
  exact ⟨t, hstep, hs.pc_aligned, hin⟩

/-! ## The launch -/

/-- The reset state with the preload in `x[1..31]` and the image in memory: what `State.launch` answers (`launch_fits`). -/
def State.launched (image : List Byte) (preload : Vector Word 32) : State :=
  { State.reset with regs := preload.set 0 0, mem := Memory.ofImage 0 image, imageLen := image.length }

section
variable {image : List Byte} {preload : Vector Word 32}

/-- An image of no bytes is refused (R164, decision D12). -/
theorem launch_empty (h : image.length = 0) : State.launch image preload = .error .imageEmpty :=
  if_pos (List.eq_nil_of_length_eq_zero h)

theorem launch_nonempty (h : 1 ≤ image.length) : State.launch image preload =
    if Config.memSize < image.length then .error .imageTooLong else .ok (State.launched image preload) :=
  if_neg (List.ne_nil_of_length_pos h)

/-- An image longer than memory is refused (R164, decision D12). -/
theorem launch_tooLong (h : Config.memSize < image.length) : State.launch image preload = .error .imageTooLong :=
  (launch_nonempty (Nat.zero_lt_of_lt h)).trans (if_pos h)

theorem launch_fits (hpos : 1 ≤ image.length) (hfits : image.length ≤ Config.memSize) :
    State.launch image preload = .ok (State.launched image preload) :=
  (launch_nonempty hpos).trans (if_neg (Nat.not_lt.2 hfits))

/-- The image lies at address 0 over zeros (R33). -/
theorem launched_read (a : Nat) : (State.launched image preload).mem.read a = image.getD a 0 := by
  have h := Memory.read_ofImage 0 image a
  rwa [Nat.zero_add] at h

/-- The preload reaches every register but `x[0]` (R169). -/
theorem launched_readReg {r : Reg} (hr : r ≠ 0) : (State.launched image preload).readReg r = preload[r] := by
  have hval : ¬0 = r.val := fun e => hr (Fin.ext e.symm)
  simp [State.readReg_of_ne _ hr, State.launched, hval]

/-- The launch state is a running core at pc 0 of an image that memory holds. -/
theorem launched_inv (hpos : 1 ≤ image.length) (hfits : image.length ≤ Config.memSize) :
    (State.launched image preload).Inv where
  x0_zero := by simp [State.launched]
  pc_aligned := rfl
  pc_bounded := Nat.zero_le _
  running_in_image := fun _ => hpos
  halted_has_cause := fun h => nomatch h
  running_no_cause := fun _ => rfl
  image_nonempty := hpos
  image_fits := hfits
  mem_wf := Memory.wfFrom_ofImage (by omega)

end

/-- Settles O47: an image that fits is launched in `State.launched`, which meets the invariant; the other lengths are refused. -/
theorem launchPlacesTheImage : Obligations.LaunchPlacesTheImage := by
  intro image preload
  refine ⟨fun hpos hfits => ⟨_, launch_fits hpos hfits, ?_⟩, launch_empty, launch_tooLong⟩
  exact ⟨launched_inv hpos hfits, rfl, launched_read, fun r hr => launched_readReg hr, State.readReg_zero _, rfl, rfl, rfl, rfl,
    rfl⟩

end Sys2Proof.Machine
end

section
/-! PROOFS, family 30_encoding. The operand fields of an encoded word and the instruction it decodes to; the two halves of the round
trip. -/

namespace Sys2Proof

/-! ## The operand fields of an encoded layout -/

section
variable (f7 : BitVec 7) (f3 : BitVec 3) (imm : BitVec 12) (rd rs1 rs2 : Reg)

@[simp] theorem rdOf_encodeR : rdOf (encodeR f7 rs2 rs1 f3 rd) = rd := by
  obtain ⟨-, -, -, -, hrd, -⟩ := fields_encodeR f7 rs2 rs1 f3 rd
  exact hrd

@[simp] theorem rs1Of_encodeR : rs1Of (encodeR f7 rs2 rs1 f3 rd) = rs1 := by
  obtain ⟨-, -, hrs1, -⟩ := fields_encodeR f7 rs2 rs1 f3 rd
  exact hrs1

@[simp] theorem rs2Of_encodeR : rs2Of (encodeR f7 rs2 rs1 f3 rd) = rs2 := by
  obtain ⟨-, hrs2, -⟩ := fields_encodeR f7 rs2 rs1 f3 rd
  exact hrs2

@[simp] theorem immOf_encodeI : immOf (encodeI imm rs1 f3 rd) = imm := by
  obtain ⟨himm, -⟩ := fields_encodeI imm rs1 f3 rd
  exact himm

@[simp] theorem rs1Of_encodeI : rs1Of (encodeI imm rs1 f3 rd) = rs1 := by
  obtain ⟨-, hrs1, -⟩ := fields_encodeI imm rs1 f3 rd
  exact hrs1

@[simp] theorem rdOf_encodeI : rdOf (encodeI imm rs1 f3 rd) = rd := by
  obtain ⟨-, -, -, hrd, -⟩ := fields_encodeI imm rs1 f3 rd
  exact hrd

/-- w[31:25] of an I-layout word is the upper part of its immediate (R53). -/
theorem immHiOf_encodeI : immHiOf (encodeI imm rs1 f3 rd) = imm.extractLsb 11 5 :=
  (immHi_eq _).symm.trans (congrArg (·.extractLsb 11 5) (immOf_encodeI f3 imm rd rs1))

/-- w[24:20] of an I-layout word is the lower part of its immediate (R53). -/
theorem shamtOf_encodeI : shamtOf (encodeI imm rs1 f3 rd) = imm.extractLsb 4 0 :=
  (shamt_eq _).symm.trans (congrArg (·.extractLsb 4 0) (immOf_encodeI f3 imm rd rs1))

/-- An R-layout word is dispatched by its pair (R61). -/
theorem dispatch_encodeR : dispatch (describe (encodeR f7 rs2 rs1 f3 rd)) = dispatchR f3 f7 := by
  obtain ⟨h7, -, -, h3, -, ho⟩ := fields_encodeR f7 rs2 rs1 f3 rd
  rw [dispatch_of_opcodeR ho, h3, h7]

/-- An I-layout word is dispatched by funct3 and the upper part of its immediate (R62). -/
theorem dispatch_encodeI : dispatch (describe (encodeI imm rs1 f3 rd)) = dispatchI f3 (imm.extractLsb 11 5) := by
  obtain ⟨-, -, h3, -, ho⟩ := fields_encodeI imm rs1 f3 rd
  have hhi : extractBits (encodeI imm rs1 f3 rd) 31 25 = imm.extractLsb 11 5 := immHiOf_encodeI f3 imm rd rs1
  rw [dispatch_of_opcodeI ho, h3, hhi]

end

/-! ## Decode after encode -/

/-- An R-layout word of a pair whose operation takes `rd`, `rs1` and `rs2` decodes to it with these registers. -/
theorem decode_encodeR_eq {f7 : BitVec 7} {f3 : BitVec 3} {op : Op} {mk : Reg → Reg → Reg → Instr}
    (hop : dispatchR f3 f7 = op) (hmk : ∀ d, op.instr d = mk d.rd d.rs1 d.rs2) (rd rs1 rs2 : Reg) :
    decode (encodeR f7 rs2 rs1 f3 rd) = mk rd rs1 rs2 := by
  rw [decode_encodeR f7 rs2 rs1 f3 rd hop, hmk]
  show mk (rdOf _) (rs1Of _) (rs2Of _) = _
  rw [rdOf_encodeR, rs1Of_encodeR, rs2Of_encodeR]

/-- An I-layout word whose operation takes `rd`, `rs1` and the immediate decodes to it with these operands. -/
theorem decode_encodeI_eq {f3 : BitVec 3} {op : Op} {mk : Reg → Reg → BitVec 12 → Instr} {imm : BitVec 12}
    (hop : dispatchI f3 (imm.extractLsb 11 5) = op) (hmk : ∀ d, op.instr d = mk d.rd d.rs1 d.imm12) (rd rs1 : Reg) :
    decode (encodeI imm rs1 f3 rd) = mk rd rs1 imm := by
  rw [decode_encodeI imm rs1 f3 rd hop, hmk]
  show mk (rdOf _) (rs1Of _) (immOf _) = _
  rw [rdOf_encodeI, rs1Of_encodeI, immOf_encodeI]

/-- A shift word whose operation takes the two parts of the immediate decodes to it with the parts it was made of. -/
theorem decode_encodeI_shift {f3 : BitVec 3} {op : Op} {mk : Reg → Reg → BitVec 7 → BitVec 5 → Instr} {immHi : BitVec 7}
    (hop : dispatchI f3 immHi = op)
    (hmk : ∀ d, op.instr d = mk d.rd d.rs1 (d.imm12.extractLsb 11 5) (d.imm12.extractLsb 4 0)) (rd rs1 : Reg)
    (shamt : BitVec 5) : decode (encodeI (immHi ++ shamt) rs1 f3 rd) = mk rd rs1 immHi shamt := by
  have hhi := immHi_of_append immHi shamt
  rw [decode_encodeI_eq (mk := fun rd rs1 imm => mk rd rs1 (imm.extractLsb 11 5) (imm.extractLsb 4 0))
    (by rw [hhi, hop]) hmk, hhi, shamt_of_append]

theorem decode_of_opcodeU {w : Word} (h : (extractBits w 6 0).toNat = 0x37) :
    decode w = .lui (rdOf w) (extractBits w 31 12) := by
  rw [decode, dispatch_of_opcodeU h]
  rfl

theorem decode_of_opcodeSystem {w : Word} (h : (extractBits w 6 0).toNat = 0x73) : decode w = .ecall (extractBits w 31 7) := by
  rw [decode, dispatch_of_opcodeSystem h]
  rfl

theorem decode_encode_lui (rd : Reg) (imm20 : BitVec 20) : decode (encode (.lui rd imm20)) = .lui rd imm20 := by
  have hsum := encodeLui_toNat rd imm20
  have himm := imm20.isLt
  have hopcode : (extractBits (encode (.lui rd imm20)) 6 0).toNat = 0x37 := by rw [extractBits_toNat]; omega
  have hrd : rdOf (encode (.lui rd imm20)) = rd := Fin.ext (by simp only [rdOf, regOfBits_val, extractBits_toNat]; omega)
  have himm20 : extractBits (encode (.lui rd imm20)) 31 12 = imm20 :=
    BitVec.eq_of_toNat_eq (by rw [extractBits_toNat]; omega)
  rw [decode_of_opcodeU hopcode, hrd, himm20]

theorem decode_encode_ecall (u : BitVec 25) : decode (encode (.ecall u)) = .ecall u := by
  have hsum := encodeEcall_toNat u
  have hu := u.isLt
  have hopcode : (extractBits (encode (.ecall u)) 6 0).toNat = 0x73 := by rw [extractBits_toNat]; omega
  have hrest : extractBits (encode (.ecall u)) 31 7 = u := BitVec.eq_of_toNat_eq (by rw [extractBits_toNat]; omega)
  rw [decode_of_opcodeSystem hopcode, hrest]

/-- Decoding reads back every well-formed instruction. Well-formedness is used by the three rows that other rows take precedence
over: SRAI (with w[31:25] zero the word is SRLI) and the two "otherwise" rows. -/
theorem decode_encode {i : Instr} (hwf : i.wellFormed = true) : decode (encode i) = i := by
  cases i with
  | add | sub | xor | or | and | sll | srl | sra | slt | sltu => exact decode_encodeR_eq rfl (fun _ => rfl) _ _ _
  | addi | xori | ori | andi | slti | sltiu => exact decode_encodeI_eq rfl (fun _ => rfl) _ _
  | slli => exact decode_encodeI_shift (mk := Instr.slli) rfl (fun _ => rfl) _ _ _
  | srli => exact decode_encodeI_shift (mk := fun rd rs1 _ shamt => .srli rd rs1 shamt) rfl (fun _ => rfl) _ _ _
  | srai rd rs1 immHi shamt =>
    have hne : immHi ≠ 0 := bne_iff_ne.1 hwf
    have hop : dispatchI 0b101 immHi = .srai := if_neg hne
    exact decode_encodeI_shift hop (fun _ => rfl) rd rs1 shamt
  | lui rd imm20 => exact decode_encode_lui rd imm20
  | ecall u => exact decode_encode_ecall u
  | unimpFunct w => exact congrArg (·.instr (describe w)) (dispatch_of_wf_unimpFunct hwf)
  | unimpOpcode w => exact congrArg (·.instr (describe w)) (dispatch_of_wf_unimpOpcode hwf)

/-- Settles O6: the word decodes back, and its four bytes hold the word. -/
theorem decodeOfEncodeIsIdentity : Obligations.DecodeOfEncodeIsIdentity := by
  intro i hwf
  have hword := decode_encode hwf
  refine ⟨hword, fun rest => ?_⟩
  rw [encodeBytes, decodeBytes_unpackLE, hword]

/-! ## Encode after decode -/

/-- The operation of an implemented pair of opcode 0110011 makes of any descriptor a well-formed instruction, which the R layout
encodes with that pair. -/
theorem encode_instr_dispatchR (f3 : BitVec 3) (f7 : BitVec 7) (d : Descriptor) :
    dispatchR f3 f7 = .unimpFunct ∧ implementedPairs.contains (f3, f7) = false ∨
    ((dispatchR f3 f7).instr d).wellFormed = true ∧
      encode ((dispatchR f3 f7).instr d) = encodeR f7 d.rs2 d.rs1 f3 d.rd := by
  refine (dispatchR_cases f3 f7).imp_right fun hmem => ?_
  simp only [List.mem_cons, List.not_mem_nil, or_false, Prod.mk.injEq] at hmem
  rcases hmem with h | h | h | h | h | h | h | h | h | h <;>
    (obtain ⟨rfl, rfl, hop⟩ := h; rw [hop]; exact ⟨rfl, rfl⟩)

/-- The two parts of a shift immediate side by side are the immediate (R53). -/
theorem immHi_append_shamt (imm : BitVec 12) : (imm.extractLsb 11 5 : BitVec 7) ++ (imm.extractLsb 4 0 : BitVec 5) = imm := by
  have himm := imm.isLt
  apply BitVec.eq_of_toNat_eq
  rw [immHi_shamt_toNat]
  simp only [BitVec.extractLsb, BitVec.extractLsb'_toNat, Nat.shiftRight_eq_div_pow]
  omega

theorem encodeI_immHi_append_shamt (imm : BitVec 12) (rs1 : Reg) (f3 : BitVec 3) (rd : Reg) :
    encodeI ((imm.extractLsb 11 5 : BitVec 7) ++ (imm.extractLsb 4 0 : BitVec 5)) rs1 f3 rd = encodeI imm rs1 f3 rd :=
  congrArg (encodeI · rs1 f3 rd) (immHi_append_shamt imm)

/-- The operation of opcode 0010011 makes of any descriptor with that imm[11:5] a well-formed instruction, which the I layout
encodes with that funct3. -/
theorem encode_instr_dispatchI (f3 : BitVec 3) (d : Descriptor) :
    ((dispatchI f3 (d.imm12.extractLsb 11 5)).instr d).wellFormed = true ∧
      encode ((dispatchI f3 (d.imm12.extractLsb 11 5)).instr d) = encodeI d.imm12 d.rs1 f3 d.rd := by
  rcases dispatchI_cases f3 (d.imm12.extractLsb 11 5) with hmem | ⟨rfl, hzero, hop⟩ | ⟨rfl, hne, hop⟩
  · simp only [List.mem_cons, List.not_mem_nil, or_false, Prod.mk.injEq] at hmem
    have hslli := encodeI_immHi_append_shamt d.imm12 d.rs1 0b001 d.rd
    rcases hmem with h | h | h | h | h | h | h <;> obtain ⟨rfl, hop⟩ := h <;> rw [hop]
    exacts [⟨rfl, rfl⟩, ⟨rfl, rfl⟩, ⟨rfl, rfl⟩, ⟨rfl, rfl⟩, ⟨rfl, hslli⟩, ⟨rfl, rfl⟩, ⟨rfl, rfl⟩]
  · have hsrli := encodeI_immHi_append_shamt d.imm12 d.rs1 0b101 d.rd
    rw [hzero] at hsrli
    rw [hop]
    exact ⟨rfl, hsrli⟩
  · rw [hop]
    exact ⟨bne_iff_ne.2 hne, encodeI_immHi_append_shamt d.imm12 d.rs1 0b101 d.rd⟩

/-- The round trip of a word of opcode 0110011: its pair is implemented, or the word is kept whole (R61, R63). -/
theorem encode_decode_of_opcodeR {w : Word} (ho : (extractBits w 6 0).toNat = 0x33) :
    (decode w).wellFormed = true ∧ encode (decode w) = w := by
  have hop := dispatch_of_opcodeR ho
  unfold decode
  rw [hop]
  rcases encode_instr_dispatchR (extractBits w 14 12) (extractBits w 31 25) (describe w) with ⟨hun, hpair⟩ | ⟨hwf, henc⟩
  · have hopcode : extractBits w 6 0 = 0b0110011#7 := BitVec.eq_of_toNat_eq ho
    rw [hun]
    exact ⟨Bool.and_eq_true_iff.2 ⟨beq_iff_eq.2 hopcode, congrArg not hpair⟩, rfl⟩
  · exact ⟨hwf, henc.trans (encodeR_of_fields w ho rfl rfl)⟩

/-- The round trip of a word of opcode 0010011 (R62). -/
theorem encode_decode_of_opcodeI {w : Word} (ho : (extractBits w 6 0).toNat = 0x13) :
    (decode w).wellFormed = true ∧ encode (decode w) = w := by
  have hop := dispatch_of_opcodeI ho
  obtain ⟨hwf, henc⟩ := encode_instr_dispatchI (extractBits w 14 12) (describe w)
  rw [← immHi_eq] at hop
  unfold decode
  rw [hop]
  exact ⟨hwf, henc.trans (encodeI_of_fields w ho rfl rfl)⟩

/-- A LUI word is its two fields and the opcode (R54). -/
theorem encode_lui_of_fields {w : Word} (ho : (extractBits w 6 0).toNat = 0x37) :
    encode (.lui (rdOf w) (extractBits w 31 12)) = w := by
  have hw := w.isLt
  apply BitVec.eq_of_toNat_eq
  rw [encodeLui_toNat]
  simp only [rdOf, regOfBits_val, extractBits_toNat] at ho ⊢
  omega

/-- A system word is w[31:7] and the opcode (R56). -/
theorem encode_ecall_of_fields {w : Word} (ho : (extractBits w 6 0).toNat = 0x73) :
    encode (.ecall (extractBits w 31 7)) = w := by
  have hw := w.isLt
  apply BitVec.eq_of_toNat_eq
  rw [encodeEcall_toNat]
  simp only [extractBits_toNat] at ho ⊢
  omega

/-- A word whose opcode is none of the four is a well-formed `unimpOpcode` (R60, R142). -/
theorem wellFormed_unimpOpcode {w : Word} (hR : (extractBits w 6 0).toNat ≠ 0x33) (hI : (extractBits w 6 0).toNat ≠ 0x13)
    (hU : (extractBits w 6 0).toNat ≠ 0x37) (hS : (extractBits w 6 0).toNat ≠ 0x73) :
    (Instr.unimpOpcode w).wellFormed = true := by
  have hmem : extractBits w 6 0 ∉ recognisedOpcodes := by
    simp only [recognisedOpcodes, List.mem_cons, List.not_mem_nil, or_false]
    rintro (h | h | h | h) <;> rw [h] at hR hI hU hS
    · exact hR rfl
    · exact hI rfl
    · exact hU rfl
    · exact hS rfl
  exact congrArg not ((List.contains_eq_mem _ _).trans (decide_eq_false hmem))

/-- Settles O7, by the opcode of the word. -/
theorem encodeOfDecodeIsIdentity : Obligations.EncodeOfDecodeIsIdentity := by
  intro w
  by_cases hR : (extractBits w 6 0).toNat = 0x33
  · exact encode_decode_of_opcodeR hR
  by_cases hI : (extractBits w 6 0).toNat = 0x13
  · exact encode_decode_of_opcodeI hI
  by_cases hU : (extractBits w 6 0).toNat = 0x37
  · rw [decode_of_opcodeU hU]
    exact ⟨rfl, encode_lui_of_fields hU⟩
  by_cases hS : (extractBits w 6 0).toNat = 0x73
  · rw [decode_of_opcodeSystem hS]
    exact ⟨rfl, encode_ecall_of_fields hS⟩
  · rw [decode, dispatch_of_other hR hI hU hS]
    exact ⟨wellFormed_unimpOpcode hR hI hU hS, rfl⟩

end Sys2Proof
end

section
/-! PROOFS, family 30_encoding. The opcode table against the dispatcher: the row of the dispatched operation fits the word, and every
other row that fits has a greater priority number. -/

namespace Sys2Proof

open Sys2Proof.Laws.EncodeFitsRow (rowOf fitsR fitsI)

/-! ## The row of an operation -/

/-- The row of the opcode table that names the operation. -/
def Op.row (op : Op) : TableRow := (opcodeTable.find? (·.op == op)).get (by cases op <;> rfl)

theorem Op.row_mem (op : Op) : op.row ∈ opcodeTable := List.mem_of_find?_eq_some (Option.some_get _).symm

theorem Op.row_op (op : Op) : op.row.op = op := by cases op <;> rfl

/-- No operation has two rows. -/
theorem eq_row_of_mem : ∀ row ∈ opcodeTable, row = row.op.row := by decide

/-- The row of an operation is the row its instructions come from. -/
theorem rowOf_instr (op : Op) (d : Descriptor) : rowOf (op.instr d) = (op.row.mtch, op.row.mask) := by cases op <;> rfl

theorem Op.row_priority (op : Op) : op.row.priority = 1 ∨ op.row.priority = 2 ∨ op.row.priority = 3 := by
  cases op <;> decide

/-- The encoding of every well-formed instruction fits its row (R63). -/
theorem encode_fits_rowOf (i : Instr) : Laws.EncodeFitsRow.Statement i := by
  cases i with
  | add | sub | xor | or | and | sll | srl | sra | slt | sltu => exact fun _ => fitsR _ _ _ _ _ rfl
  | addi | xori | ori | andi | slli | srai | slti | sltiu => exact fun _ => fitsI _ _ _ _ rfl
  | srli rd rs1 shamt => exact Laws.EncodeFitsRow.srli rd rs1 shamt
  | lui rd imm20 => exact Laws.EncodeFitsRow.lui rd imm20
  | ecall u => exact Laws.EncodeFitsRow.ecall u
  | unimpFunct w => exact Laws.EncodeFitsRow.unimpFunct w
  | unimpOpcode w => exact Laws.EncodeFitsRow.unimpOpcode w

/-- Every word fits the row of the operation it is dispatched to (R63, R80). -/
theorem row_dispatch_fits (w : Word) : (dispatch (describe w)).row.fits w = true := by
  obtain ⟨hwf, henc⟩ := encodeOfDecodeIsIdentity w
  have hfits := encode_fits_rowOf (decode w) hwf
  rw [henc, decode, rowOf_instr] at hfits
  exact beq_iff_eq.2 hfits

/-! ## No other row comes first -/

/-- A word that fits an R row is dispatched as the row's match is. -/
theorem dispatch_of_maskR {w c : Word} (hw : w &&& 0xFE00707F = c) (hc : c &&& 0xFE00707F = c) :
    dispatch (describe w) = dispatch (describe c) := by
  obtain ⟨hw7, hw3, hwo⟩ := fields_of_maskR hw
  obtain ⟨hc7, hc3, hco⟩ := fields_of_maskR hc
  exact dispatch_congr (BitVec.eq_of_toNat_eq (hw7.trans hc7.symm)) (BitVec.eq_of_toNat_eq (hw3.trans hc3.symm))
    (BitVec.eq_of_toNat_eq (hwo.trans hco.symm))

/-- A word that fits an I row is dispatched by the row's funct3 and its own w[31:25]. -/
theorem dispatch_of_maskI {w c : Word} (hw : w &&& 0x0000707F = c) (hc : c &&& 0x0000707F = c)
    (hopcode : c.toNat % 2 ^ 12 = 0x13) : dispatch (describe w) = dispatchI (extractBits c 14 12) (extractBits w 31 25) := by
  obtain ⟨hw3, hwo⟩ := fields_of_maskI hw
  obtain ⟨hc3, -⟩ := fields_of_maskI hc
  rw [dispatch_of_opcodeI (hwo.trans hopcode), BitVec.eq_of_toNat_eq (hw3.trans hc3.symm)]

/-- Opcode 0110011 with an implemented pair is dispatched to an operation whose row has priority 1 (R61, R143). -/
theorem dispatchR_priority (f3 : BitVec 3) (f7 : BitVec 7) :
    dispatchR f3 f7 = .unimpFunct ∨ (dispatchR f3 f7).row.priority = 1 := by
  rcases dispatchR_cases f3 f7 with ⟨hun, -⟩ | hmem
  · exact .inl hun
  · have hone : ∀ op ∈ [Op.add, .sub, .xor, .or, .and, .sll, .srl, .sra, .slt, .sltu], op.row.priority = 1 := by decide
    exact .inr (hone _ (List.mem_map_of_mem (f := (·.2.2)) hmem))

/-- A row that fits is the row of the dispatched operation, or comes after it (R63). -/
theorem dispatch_of_row_fits {w : Word} {op : Op} (hfits : op.row.fits w = true) :
    dispatch (describe w) = op ∨ (dispatch (describe w)).row.priority < op.row.priority := by
  have h : w &&& op.row.mask = op.row.mtch := beq_iff_eq.1 hfits
  cases op with
  | add | sub | xor | or | and | sll | srl | sra | slt | sltu | srli => exact .inl (dispatch_of_maskR h rfl)
  | addi | xori | ori | andi | slli | slti | sltiu => exact .inl (dispatch_of_maskI h rfl rfl)
  | srai =>
    rw [dispatch_of_maskI h rfl rfl]
    by_cases hzero : extractBits w 31 25 = 0
    · exact .inr (by rw [hzero]; decide)
    · exact .inl (if_neg hzero)
  | lui => exact .inl (dispatch_of_opcodeU ((mask_opcode w 0x37 (by decide)).1 h))
  | ecall => exact .inl (dispatch_of_opcodeSystem ((mask_opcode w 0x73 (by decide)).1 h))
  | unimpFunct =>
    rw [dispatch_of_opcodeR ((mask_opcode w 0x33 (by decide)).1 h)]
    exact (dispatchR_priority _ _).imp_right fun hone => by rw [hone]; decide
  | unimpOpcode => cases dispatch (describe w) <;> decide

/-! ## The selection -/

/-- A fitting row before which no other fitting row comes is the one found at its priority; at a smaller priority none is. -/
theorem fittingRow_eq {w : Word} {row : TableRow} (hmem : row ∈ opcodeTable) (hfits : row.fits w = true)
    (hleast : ∀ r ∈ opcodeTable, r.fits w = true → r = row ∨ row.priority < r.priority) {p : Nat} (hp : p ≤ row.priority) :
    fittingRow p w = if p = row.priority then some row else none := by
  have hfound : ∀ r, fittingRow p w = some r → r = row ∧ p = row.priority := by
    intro r hr
    have hprop := List.find?_some hr
    simp only [Bool.and_eq_true, beq_iff_eq] at hprop
    obtain ⟨hrp, hrfits⟩ := hprop
    rcases hleast r (List.mem_of_find?_eq_some hr) hrfits with rfl | hlt
    · exact ⟨rfl, hrp.symm⟩
    · omega
  cases hr : fittingRow p w with
  | some r =>
    obtain ⟨rfl, hrp⟩ := hfound r hr
    rw [if_pos hrp]
  | none =>
    refine (if_neg fun hrp => ?_).symm
    exact List.find?_eq_none.1 hr row hmem (by simp [hrp, hfits])

/-- The row a decoder takes is the row of the dispatched operation (R63, R80). -/
theorem selectRow_eq (w : Word) : selectRow w = some (dispatch (describe w)).row := by
  have hleast : ∀ r ∈ opcodeTable, r.fits w = true →
      r = (dispatch (describe w)).row ∨ (dispatch (describe w)).row.priority < r.priority := by
    intro r hr hfits
    rw [eq_row_of_mem r hr] at hfits ⊢
    exact (dispatch_of_row_fits hfits).imp_left fun h => by rw [h]
  have hat := fun p => fittingRow_eq (p := p) (Op.row_mem _) (row_dispatch_fits w) hleast
  rw [selectRow]
  rcases (dispatch (describe w)).row_priority with h | h | h
  · rw [hat 1 (by omega), if_pos h.symm]
    rfl
  · rw [hat 1 (by omega), hat 2 (by omega), if_neg (by omega), if_pos h.symm]
    rfl
  · rw [hat 1 (by omega), hat 2 (by omega), hat 3 (by omega), if_neg (by omega), if_neg (by omega), if_pos h.symm]
    rfl

/-- A word that fits a row of priority 1 is dispatched to it (R63). -/
theorem dispatch_of_priority_one {w : Word} {row : TableRow} (hmem : row ∈ opcodeTable) (hprio : row.priority = 1)
    (hfits : row.fits w = true) : row = (dispatch (describe w)).row := by
  rw [eq_row_of_mem row hmem] at hprio hfits ⊢
  rcases dispatch_of_row_fits hfits with h | hlt
  · rw [h]
  · have := (dispatch (describe w)).row_priority
    omega

/-- Settles O5: the row of the dispatched operation is selected, and is the only one of priority 1 that the word can fit. -/
theorem tableAndDispatcherAgree : Obligations.TableAndDispatcherAgree := by
  refine fun w => ⟨?_, fun p hp q hq hp1 hq1 hpw hqw => ?_⟩
  · rw [selectRow_eq, Option.map_some, Op.row_op]
  · exact (dispatch_of_priority_one hp hp1 hpw).trans (dispatch_of_priority_one hq hq1 hqw).symm

end Sys2Proof
end

section
/-! PROOFS, family 30_encoding. What the assembly lines of R68 make, and the statements about single words and about execution. -/

namespace Sys2Proof.Machine

/-! ## The lines of an instruction layout -/

/-- An R-type line makes the R-layout word of its registers and the pair of its mnemonic (R61, R68). -/
theorem encode_assembleR {m : Op} {rd rs1 rs2 : Reg} {i : Instr} (h : assembleR m rd rs1 rs2 = some i) :
    i.wellFormed = true ∧ ∃ f7 f3, encode i = encodeR f7 rs2 rs1 f3 rd ∧ dispatchR f3 f7 = m := by
  cases m with
  | add | sub | xor | or | and | sll | srl | sra | slt | sltu =>
    obtain rfl := Option.some.inj h
    exact ⟨rfl, _, _, rfl, rfl⟩
  | _ => cases h

theorem assembleR_isSome (m : Op) (rd rs1 rs2 : Reg) : (assembleR m rd rs1 rs2).isSome = true ↔
    m ∈ [Op.add, .sub, .xor, .or, .and, .sll, .srl, .sra, .slt, .sltu] := by
  cases m <;> simp [assembleR]

/-- An I-type arithmetic line makes the I-layout word of its operands and the funct3 of its mnemonic (R62, R68). -/
theorem encode_assembleI {m : Op} {rd rs1 : Reg} {imm : BitVec 12} {i : Instr} (h : assembleI m rd rs1 imm = some i) :
    i.wellFormed = true ∧ ∃ f3, encode i = encodeI imm rs1 f3 rd ∧ ∀ hi, dispatchI f3 hi = m := by
  cases m with
  | addi | xori | ori | andi | slti | sltiu =>
    obtain rfl := Option.some.inj h
    exact ⟨rfl, _, rfl, fun _ => rfl⟩
  | _ => cases h

theorem assembleI_isSome (m : Op) (rd rs1 : Reg) (imm : BitVec 12) : (assembleI m rd rs1 imm).isSome = true ↔
    m ∈ [Op.addi, .xori, .ori, .andi, .slti, .sltiu] := by
  cases m <;> simp [assembleI]

/-- w[31:25] of a shift line (R68). -/
def shiftImmHi (m : Op) : BitVec 7 := if m = .srai then 0b0100000 else 0

/-- A shift line makes the I-layout word of its registers, its amount and its mnemonic's w[31:25] (R62, R68). -/
theorem encode_assembleShift {m : Op} {rd rs1 : Reg} {shamt : BitVec 5} {i : Instr}
    (h : assembleShift m rd rs1 shamt = some i) :
    i.wellFormed = true ∧ ∃ f3, encode i = encodeI (shiftImmHi m ++ shamt) rs1 f3 rd ∧ dispatchI f3 (shiftImmHi m) = m := by
  cases m with
  | slli | srli | srai =>
    obtain rfl := Option.some.inj h
    exact ⟨rfl, _, rfl, rfl⟩
  | _ => cases h

theorem assembleShift_isSome (m : Op) (rd rs1 : Reg) (shamt : BitVec 5) : (assembleShift m rd rs1 shamt).isSome = true ↔
    m ∈ [Op.slli, .srli, .srai] := by
  cases m <;> simp [assembleShift]

/-! ## Every line -/

section
variable {rd rs1 rs2 : Reg} {m : Op} {v : Int} {n : Nat} {i : Instr}

/-- Only an immediate from -2048 to 2047 is placed (R68, R73). -/
theorem assemble_iArith : assemble (.iArith m rd rs1 v) = some i ↔
    (-2048 ≤ v ∧ v ≤ 2047) ∧ assembleI m rd rs1 (BitVec.ofInt 12 v) = some i := Option.ite_none_right_eq_some

/-- Only an amount below 32 is placed (R68). -/
theorem assemble_iShift : assemble (.iShift m rd rs1 n) = some i ↔
    n < 32 ∧ assembleShift m rd rs1 (BitVec.ofNat 5 n) = some i := Option.ite_none_right_eq_some

theorem assemble_lui : assemble (.lui rd n) = some i ↔ n < 2 ^ 20 ∧ some (.lui rd (BitVec.ofNat 20 n)) = some i :=
  Option.ite_none_right_eq_some

theorem assemble_word : assemble (.word n) = some i ↔ n < 2 ^ 32 ∧ some (decode (BitVec.ofNat 32 n)) = some i :=
  Option.ite_none_right_eq_some

end

/-- Every line that assembles makes a well-formed instruction. -/
theorem assemble_wellFormed {l : AsmLine} {i : Instr} (h : assemble l = some i) : i.wellFormed = true := by
  cases l with
  | rType m rd rs1 rs2 => exact (encode_assembleR h).1
  | iArith m rd rs1 imm => exact (encode_assembleI (assemble_iArith.1 h).2).1
  | iShift m rd rs1 shamt => exact (encode_assembleShift (assemble_iShift.1 h).2).1
  | lui rd imm20 =>
    obtain rfl := Option.some.inj (assemble_lui.1 h).2
    rfl
  | ecall =>
    obtain rfl := Option.some.inj h
    rfl
  | word value =>
    obtain rfl := Option.some.inj (assemble_word.1 h).2
    exact (encodeOfDecodeIsIdentity _).1

theorem assembled_rType {m : Op} {rd rs1 rs2 : Reg} {i : Instr} (h : assemble (.rType m rd rs1 rs2) = some i) :
    rdOf (encode i) = rd ∧ rs1Of (encode i) = rs1 ∧ rs2Of (encode i) = rs2 ∧ dispatch (describe (encode i)) = m := by
  obtain ⟨-, f7, f3, henc, hop⟩ := encode_assembleR h
  rw [henc, dispatch_encodeR, hop]
  simp

theorem assembled_iArith {m : Op} {rd rs1 : Reg} {v : Int} {i : Instr} (h : assemble (.iArith m rd rs1 v) = some i) :
    (immOf (encode i)).toInt = v ∧ rdOf (encode i) = rd ∧ rs1Of (encode i) = rs1 ∧ dispatch (describe (encode i)) = m := by
  obtain ⟨⟨hlo, hhi⟩, h'⟩ := assemble_iArith.1 h
  obtain ⟨-, f3, henc, hop⟩ := encode_assembleI h'
  have hv : (BitVec.ofInt 12 v).toInt = v := BitVec.toInt_ofInt_eq_self (by decide) (by omega) (by omega)
  rw [henc, dispatch_encodeI, hop, immOf_encodeI, hv]
  simp

theorem assembled_iShift {m : Op} {rd rs1 : Reg} {n : Nat} {i : Instr} (h : assemble (.iShift m rd rs1 n) = some i) :
    (shamtOf (encode i)).toNat = n ∧ immHiOf (encode i) = shiftImmHi m ∧ rdOf (encode i) = rd ∧ rs1Of (encode i) = rs1 ∧
      dispatch (describe (encode i)) = m := by
  obtain ⟨hn, h'⟩ := assemble_iShift.1 h
  obtain ⟨-, f3, henc, hop⟩ := encode_assembleShift h'
  rw [henc, dispatch_encodeI, shamtOf_encodeI, immHiOf_encodeI, shamt_of_append, immHi_of_append, hop]
  exact ⟨Nat.mod_eq_of_lt hn, rfl, rdOf_encodeI .., rs1Of_encodeI .., rfl⟩

/-- Settles O10, form by form. -/
theorem assemblerPlacesOperands : Obligations.AssemblerPlacesOperands := by
  refine ⟨fun l i => assemble_wellFormed, fun m rd rs1 rs2 => ⟨assembleR_isSome m rd rs1 rs2, fun i => assembled_rType⟩,
    fun m rd rs1 v => ⟨?_, fun i => assembled_iArith⟩, fun m rd rs1 n => ⟨?_, fun i => assembled_iShift⟩,
    fun rd n => ⟨fun hn => ⟨_, if_pos hn, ?_⟩, fun hn => if_neg (Nat.not_lt.2 hn)⟩,
    fun n => ⟨fun hn => ⟨_, if_pos hn, ?_⟩, fun hn => if_neg (Nat.not_lt.2 hn)⟩, rfl⟩
  · rw [Option.isSome_iff_exists, ← assembleI_isSome m rd rs1 (BitVec.ofInt 12 v), Option.isSome_iff_exists]
    simp only [assemble_iArith, exists_and_left, and_comm]
  · rw [Option.isSome_iff_exists, ← assembleShift_isSome m rd rs1 (BitVec.ofNat 5 n), Option.isSome_iff_exists]
    simp only [assemble_iShift, exists_and_left, and_comm]
  · rw [encodeLui_toNat, BitVec.toNat_ofNat, Nat.mod_eq_of_lt hn]
  · rw [(encodeOfDecodeIsIdentity _).2, BitVec.toNat_ofNat, Nat.mod_eq_of_lt hn]

/-! ## Single words and execution -/

/-- Settles O22: the system call is the meaning of every system word, and `exec` does not look at w[31:7]. -/
theorem everySystemWordIsEcall : Obligations.EverySystemWordIsEcall := by
  intro w h
  have hdecode := decode_of_opcodeSystem ((mask_opcode w 0x73 (by decide)).1 h)
  refine ⟨hdecode, fun s => ?_⟩
  rw [hdecode, decode_of_opcodeSystem (w := 0x00000073) rfl, exec_ecall, exec_ecall]

/-- Settles O9: each word is the encoding of the instruction named. -/
theorem sampleWordsDecode : Obligations.SampleWordsDecode :=
  ⟨decode_encode (i := .add 3 1 2) rfl, decode_encode (i := .sra 3 1 2) rfl, decode_encode (i := .addi 3 1 0xFFF) rfl,
    decode_encode (i := .slli 3 1 0b0100000 4) rfl, decode_encode (i := .srai 3 1 0b0000001 4) rfl,
    decode_encode (i := .lui 5 0xABCDE) rfl, decode_encode (i := .ecall 0x2000) rfl,
    decode_encode (i := .unimpFunct 0x022081B3) rfl, decode_encode (i := .unimpOpcode 0x00000063) rfl⟩

/-- Settles O30: the system call ends as `syscall` says, and every other instruction writes back or records its diagnostic. -/
theorem everyInstructionCompletes : Obligations.EveryInstructionCompletes := by
  intro i s
  cases i with
  | ecall u => exact ⟨_, exec_ecall u s⟩
  | _ => exact ⟨_, rfl⟩

end Sys2Proof.Machine
end

section
/-! PROOFS, family 40_codec_decoder. The codec's two operations as shift, mask and signed number, and the descriptor's fields as
quotients and remainders of the word. -/

namespace Sys2Proof.Machine

/-! ## The codec -/

/-- Settles O1: a remainder by a power of two is a mask of ones. -/
theorem extractBitsIsShiftAndMask : Obligations.ExtractBitsIsShiftAndMask := by
  intro w high low range
  rw [extractBits_toNat, Nat.shiftRight_eq_div_pow, Nat.and_two_pow_sub_one_eq_mod]

/-- The two's-complement reading of a field, with its sign bit as a comparison with half the range (R71). -/
theorem toInt_eq_ite_half {n : Nat} (x : BitVec n) :
    x.toInt = if x.toNat < 2 ^ (n - 1) then (x.toNat : Int) else (x.toNat : Int) - 2 ^ n := by
  rw [BitVec.toInt_eq_msb_cond, BitVec.msb_eq_decide]
  by_cases h : x.toNat < 2 ^ (n - 1)
  · simp [h]
  · simp [h, Nat.not_lt.1 h]

/-- Extending the sign keeps the signed value of the low bits (R71). -/
theorem signExtendBits_toInt (v : Word) (width : Nat) (range : 1 ≤ width ∧ width ≤ 32) :
    (signExtendBits v width range).toInt = (v.setWidth width).toInt := BitVec.toInt_signExtend_of_le range.2

/-- Settles O2: the low `width` bits, whose number is the remainder, keep their signed value. -/
theorem signExtendReadsLowBitsAsSigned : Obligations.SignExtendReadsLowBitsAsSigned := by
  intro v width range
  rw [signExtendBits_toInt, toInt_eq_ite_half, BitVec.toNat_setWidth]
  norm_cast

/-- The word that carries a signed number in its low 12 bits gives the 12-bit field of that number (R73). -/
theorem extractBits_ofInt_low (v : Int) : extractBits (BitVec.ofInt 32 (v % 2 ^ 12)) 11 0 = BitVec.ofInt 12 v := by
  apply BitVec.eq_of_toNat_eq
  rw [extractBits_toNat, BitVec.toNat_ofInt, BitVec.toNat_ofInt]
  omega

/-- Settles O3: the field holds `v` as a 12-bit number, and the immediate has the field's signed value. -/
theorem signedImmediateRoundTrips : Obligations.SignedImmediateRoundTrips := by
  intro v hlo hhi
  rw [extractBits_ofInt_low]
  exact (immIOf_toInt _).trans (BitVec.toInt_ofInt_eq_self (by decide) (by omega) (by omega))

/-! ## The descriptor -/

/-- A field that ends at bit 31 is a quotient alone. -/
theorem extractBits_top_toNat (w : Word) {low : Nat} (h : low ≤ 31) :
    (extractBits w 31 low ⟨h, Nat.le_refl 31⟩).toNat = w.toNat / 2 ^ low := by
  have hlt : w.toNat / 2 ^ low < 2 ^ (31 - low + 1) := by
    apply Nat.div_lt_of_lt_mul
    rw [← Nat.pow_add, show low + (31 - low + 1) = 32 by omega]
    exact w.isLt
  rw [extractBits_toNat, Nat.mod_eq_of_lt hlt]

/-- The layout by the opcode as a number (R76). -/
theorem layoutOf_eq (opcode : BitVec 7) : layoutOf opcode = (if opcode.toNat = 0b0110011 then .r
    else if opcode.toNat = 0b0010011 then .i else if opcode.toNat = 0b0110111 then .u
    else if opcode.toNat = 0b1110011 then .system else .unknown) := by
  simp only [layoutOf, BitVec.toNat_eq]
  rfl

/-- The U immediate is the word under the mask of w[31:12] (R59, R75). -/
theorem immUOf_extractBits (w : Word) : immUOf (extractBits w 31 12) = w &&& 0xFFFFF000 :=
  BitVec.eq_of_toNat_eq ((immUOf_toNat _).trans (mask_upper_toNat w).symm)

/-- The I immediate of a word is w[31:20] as a signed number (R57, R75). -/
theorem immIOf_extractBits_toInt (w : Word) : (immIOf (extractBits w 31 20)).toInt =
    if w.toNat / 2 ^ 20 < 2048 then (w.toNat / 2 ^ 20 : Int) else (w.toNat / 2 ^ 20 : Int) - 4096 := by
  rw [immIOf_toInt, toInt_eq_ite_half, extractBits_top_toNat w (by decide)]
  norm_cast

/-- Settles O4, field by field. -/
theorem descriptorHoldsEveryField : Obligations.DescriptorHoldsEveryField := by
  intro w
  have hopcode : (extractBits w 6 0).toNat = w.toNat % 2 ^ 7 := by rw [extractBits_toNat, Nat.pow_zero, Nat.div_one]
  refine ⟨rfl, ?layout, hopcode, extractBits_toNat w 11 7 (by decide), extractBits_toNat w 14 12 (by decide),
    extractBits_toNat w 19 15 (by decide), extractBits_toNat w 24 20 (by decide), extractBits_top_toNat w (by decide),
    extractBits_top_toNat w (by decide), immIOf_extractBits_toInt w, extractBits_top_toNat w (by decide),
    immUOf_extractBits w, imm12_eq_fields w, imm20_eq_fields w⟩
  case layout => exact (layoutOf_eq _).trans (by rw [hopcode])

end Sys2Proof.Machine
end

section
/-! PROOFS, family 41_sequencer. How the step of a running core ends, the fetch of a word that stands at the pc, and the runs that
follow: each step advances by 4 or ends the run. -/

namespace Sys2Proof.Machine

/-! ## What a completed execution leaves -/

/-- Settles O40: `exec` of a decoded word is the datapath's step on the word. -/
theorem execRefinesDatapath : Obligations.ExecRefinesDatapath := exec_decode_eq_datapathStep

/-- Settles O31: the normalisation at the end of every execution clears the cell, and a read of register 0 is 0 anyway. -/
theorem registerZeroIsForcedToZero : Obligations.RegisterZeroIsForcedToZero := by
  intro i s t h
  obtain ⟨hx0, -, -⟩ := exec_next_boundary h
  exact ⟨hx0, t.readReg_zero⟩

/-- Every instruction but the system call goes on (R94). -/
theorem exec_goesOn_or_ecall {i : Instr} {s t : State} (h : exec i s = .next t) : GoesOn s t ∨ ∃ u, i = .ecall u := by
  rcases exec_next_cases h with ⟨rd, v, ⟨-, -, hadv⟩, hend⟩ | ⟨es, -, ⟨-, -, hadv⟩, hend⟩ | ⟨hcall, -⟩
  · exact .inl ⟨hadv, hend⟩
  · exact .inl ⟨hadv, hend⟩
  · exact .inr hcall

/-- A running core that goes on halts at the end of the image alone (R96). -/
theorem GoesOn.haltCause_of_halted {s t : State} (h : GoesOn s t) (hrun : s.runState = .running)
    (hhalt : t.runState = .halted) : t.haltCause = some .endOfImage := by
  rcases h.run_cases with ⟨-, hsame, -⟩ | ⟨-, hcause, -⟩
  · exact absurd (hhalt.symm.trans (hsame.trans hrun)) (by decide)
  · exact hcause

/-- Settles O32: only the system call stops instead of advancing, and an advance halts a running core for the end of the image
alone. -/
theorem pcAdvancesUnlessACallEndsTheRun : Obligations.PcAdvancesUnlessACallEndsTheRun := by
  intro i s t h
  obtain ⟨-, -, hends⟩ := exec_next_boundary h
  constructor
  · rcases exec_goesOn_or_ecall h with hgo | hcall
    · exact .inl hgo.1
    · exact hends.imp (fun hgo => hgo.1) (fun hstop => ⟨hcall, hstop⟩)
  · intro hrun hhalt hcause
    rcases hends with hgo | ⟨hpc, -⟩
    · exact absurd (hgo.haltCause_of_halted hrun hhalt) hcause
    · exact hpc

/-- A stop at a call is no advance: the pc stays. -/
theorem StopsAtCall.not_advanced {s t : State} (h : StopsAtCall s t) : t.pc ≠ s.pc + 4 := by
  rw [h.1]
  exact fun e => absurd (BitVec.self_eq_add_right.1 e) (by decide)

/-- A stop at a call is never for the end of the image (R152). -/
theorem StopsAtCall.haltCause_ne_endOfImage {s t : State} (h : StopsAtCall s t) : t.haltCause ≠ some .endOfImage := by
  obtain ⟨-, ⟨-, hcause, -⟩ | ⟨-, hcause, -⟩ | hfault⟩ := h
  · simp [hcause]
  · simp [hcause]
  · simp [(State.faulted_iff.1 hfault).2]

/-- Settles O33: an execution that advances checks the end of the image, one that stops at a call neither
advances nor halts for that cause. -/
theorem endOfImageHaltsTheCore : Obligations.EndOfImageHaltsTheCore := by
  intro i s t h
  obtain ⟨-, -, hgo | hstop⟩ := exec_next_boundary h
  · refine ⟨fun _ hend => hgo.2 hend, fun hcause hnot => ?_⟩
    obtain ⟨⟨hpc, hrun, -, -⟩, -⟩ := hgo
    refine ⟨hpc, Nat.le_of_not_lt fun hlt => hnot ?_⟩
    obtain ⟨-, hsame, -⟩ := hrun (hpc ▸ hlt)
    exact hsame.symm.trans hcause
  · exact ⟨fun hadv => absurd hadv hstop.not_advanced, fun hcause => absurd hcause hstop.haltCause_ne_endOfImage⟩

/-! ## The step -/

theorem step_of_halted {s : State} (h : s.runState = .halted) : step s = .fault .coreHalted := by simp only [step, h]

/-- A running core that fetches a word executes it (R89). -/
theorem step_of_fetch {s : State} {w : Word} (hrun : s.runState = .running) (hfetch : s.fetch = some w) :
    step s = exec (decode w) s := by simp only [step, hrun, hfetch]

/-- A running core that fetches nothing stops for the fetch, not for being HALTED. -/
theorem step_of_no_fetch {s : State} (hrun : s.runState = .running) (hfetch : s.fetch = none) :
    step s = .fault .fetchOutOfRange := by simp only [step, hrun, hfetch]

/-- Settles O36: a running core either executes a word, which always answers a next state, or stops for its fetch. -/
theorem haltedIsAbsorbing : Obligations.HaltedIsAbsorbing := by
  refine fun s => ⟨⟨step_of_halted, fun hstep => ?_⟩, rfl⟩
  cases hrun : s.runState with
  | halted => rfl
  | running =>
    cases hfetch : s.fetch with
    | none => simp [step_of_no_fetch hrun hfetch] at hstep
    | some w => simp [step_of_fetch hrun hfetch, exec_decode_eq_datapathStep] at hstep

/-- Settles O38: the word the decoder packs from the four bytes at the pc is the word the step fetches. -/
theorem stepRunsDecodedInstruction : Obligations.StepRunsDecodedInstruction := by
  intro s i rest hrun hin hdecode
  obtain ⟨rfl, -⟩ := Prod.mk.inj (Except.ok.inj hdecode)
  exact step_of_fetch hrun (fetch_of_inside hin)

/-- The four bytes of a word, packed again, are the word (R35). -/
theorem ofNat_packLE_unpackLE_word (w : Word) : BitVec.ofNat 32 (packLE (unpackLE 4 w.toNat)) = w := by
  rw [packLE_unpackLE, Nat.mod_eq_of_lt (show w.toNat < 256 ^ 4 from w.isLt), BitVec.ofNat_toNat, BitVec.setWidth_eq]

/-- What `withFetchWord` makes of memory where the pc has four bytes: a write of the word. -/
theorem withFetchWord_mem {s : State} {w : Word} {m : Memory} (h : memWrite s.mem s.pc.toNat 4 w.toNat = some m) :
    (s.withFetchWord 32 w.toNat).mem = m := by
  simp only [State.withFetchWord, Nat.mod_eq_of_lt w.isLt, h, Option.getD_some]

@[simp] theorem withFetchWord_pc (s : State) (nbits w : Nat) : (s.withFetchWord nbits w).pc = s.pc := rfl

/-- Settles O39: the write at the pc is in range, and the next fetch reads the bytes it left. -/
theorem placedWordIsRunNext : Obligations.PlacedWordIsRunNext := by
  intro s w hm hin
  obtain ⟨m, hwrite, hwf, hbytes, hframe⟩ := memWrite_spec (v := w.toNat) hin hm
  have hmem := withFetchWord_mem hwrite
  have hfetch := fetch_of_inside (s := s.withFetchWord 32 w.toNat) hin
  rw [hmem, withFetchWord_pc, hbytes, ofNat_packLE_unpackLE_word] at hfetch
  rw [hmem]
  exact ⟨step_of_fetch rfl hfetch, hwf, hframe⟩

/-! ## Runs -/

theorem HaltedWith.cleanEnd {c : HaltCause} {code : Word} {t : State} (h : HaltedWith c code t)
    (hc : c ≠ .stringFault) : t.cleanEnd = true := by
  obtain ⟨hrun, hcause, -⟩ := h
  cases c with
  | stringFault => exact absurd rfl hc
  | _ => simp [State.cleanEnd, hrun, hcause]

/-- The end of a run: HALTED, cleanly or by the string fault (R100). -/
def State.ended (t : State) : Prop := t.runState = .halted ∧ (t.cleanEnd = true ∨ t.faulted = true)

theorem StopsAtCall.ended {s t : State} (h : StopsAtCall s t) : t.ended := by
  refine ⟨h.halted.1, ?_⟩
  obtain ⟨-, hexit | hexit | hfault⟩ := h
  · exact .inl (hexit.cleanEnd (by decide))
  · exact .inl (hexit.cleanEnd (by decide))
  · exact .inr hfault

/-- The step of a running core under the invariant ends the run, or leaves a running core 4 bytes further in the same image. -/
theorem step_ends_or_advances {s t : State} (hs : s.Inv) (h : step s = .next t) :
    t.ended ∨ t.Inv ∧ t.runState = .running ∧ t.pc.toNat = s.pc.toNat + 4 ∧ t.imageLen = s.imageLen := by
  obtain ⟨hrun, w, -, hexec⟩ := step_next_cases h
  obtain ⟨-, ⟨-, -, hlen⟩, hgo | hstop⟩ := exec_next_boundary hexec
  · rcases hgo.run_cases with ⟨-, hsame, -⟩ | hend
    · obtain ⟨⟨hpc, -⟩, -⟩ := hgo
      obtain ⟨hnowrap, -⟩ := hs.advanced_pc hrun
      exact .inr ⟨stepKeepsTheBoundaryInvariant s t hs h, hsame.trans hrun, by rw [hpc, hnowrap], hlen⟩
    · exact .inl ⟨hend.1, .inl (hend.cleanEnd (by decide))⟩
  · exact .inl hstop.ended

/-- By induction on a bound of the words left: the run ends within them (R99). -/
theorem run_ends_within {n : Nat} {s : State} (hs : s.Inv) (hrun : s.runState = .running)
    (hleft : (s.imageLen - s.pc.toNat + 3) / 4 ≤ n) : ∃ k t, k ≤ n ∧ core.run k s = .next t ∧ t.ended := by
  induction n generalizing s with
  | zero =>
    have hinside := hs.running_in_image hrun
    omega
  | succ n ih =>
    obtain ⟨t, hstep, -⟩ := runningCoreAlwaysSteps s hs hrun
    rcases step_ends_or_advances hs hstep with hend | ⟨ht, htrun, hpc, hlen⟩
    · exact ⟨1, t, by omega, run_succ_next.2 ⟨t, hstep, rfl⟩, hend⟩
    · obtain ⟨k, u, hk, hrest, hend⟩ := ih ht htrun (by omega)
      exact ⟨k + 1, u, by omega, run_succ_next.2 ⟨t, hstep, hrest⟩, hend⟩

/-- A run from a HALTED core has no step (R97). -/
theorem run_of_halted {k : Nat} {s t : State} (h : s.runState = .halted) (hrun : core.run k s = .next t) :
    t.runState = .halted := by
  cases k with
  | zero => exact Host.Outcome.next.inj hrun ▸ h
  | succ k =>
    obtain ⟨u, hstep, -⟩ := run_succ_next.1 hrun
    exact absurd ((step_of_halted h).symm.trans hstep) (by simp)

/-- By induction on the steps: a core that still runs has advanced by 4 in each (R99). -/
theorem run_pc {k : Nat} {s t : State} (hs : s.Inv) (h : core.run k s = .next t) (htrun : t.runState = .running) :
    t.pc.toNat = s.pc.toNat + 4 * k := by
  induction k generalizing s with
  | zero => obtain rfl := Host.Outcome.next.inj h; rfl
  | succ k ih =>
    obtain ⟨u, hstep, hrest⟩ := run_succ_next.1 h
    rcases step_ends_or_advances hs hstep with ⟨hhalt, -⟩ | ⟨hu, -, hpc, -⟩
    · exact absurd ((run_of_halted hhalt hrest).symm.trans htrun) (by decide)
    · rw [ih hu hrest, hpc]
      omega

/-- Settles O50: the words left in the image bound the run, and no step but the last leaves the sequence of words. -/
theorem everyRunHalts : Obligations.EveryRunHalts :=
  fun _ hs hrun => ⟨run_ends_within hs hrun le_rfl, fun _ _ h htrun => run_pc hs h htrun⟩

end Sys2Proof.Machine
end

section
/-! PROOFS, family 42_r_type. The ten register-register instructions: the row of each decodes to it, and its meaning writes back
one ALU function of the two source registers. -/

namespace Sys2Proof.Machine

/-! ## An instruction that writes back -/

/-- An instruction whose meaning is the write-back of a value computes that value, with the whole frame (R102, R114). -/
theorem exec_computes {i : Instr} {rd : Reg} {v : Word} {s : State} (h : exec i s = writeBack rd v s) :
    ∃ t, exec i s = .next t ∧ Computes rd v s t := by
  rw [h]
  exact writeBack_computes s rd v

/-- The same, with what is known of the value written. -/
theorem exec_computes_and {i : Instr} {rd : Reg} {v : Word} {s : State} {P : Word → Prop}
    (h : exec i s = writeBack rd v s) (hv : P v) : ∃ t v, exec i s = .next t ∧ Computes rd v s t ∧ P v := by
  obtain ⟨t, hexec, hcomp⟩ := exec_computes h
  exact ⟨t, v, hexec, hcomp, hv⟩

/-! ## The ALU functions without a shift or a comparison -/

section
variable (a b : Word)

theorem alu_add_toNat : (alu .add a b).toNat = (a.toNat + b.toNat) % 2 ^ 32 := BitVec.toNat_add a b

/-- The word of a difference is the difference modulo 2^32, a borrow included (R104). -/
theorem alu_sub_toNat : ((alu .sub a b).toNat : Int) = ((a.toNat : Int) - b.toNat) % 2 ^ 32 := by
  have ha := a.isLt
  have hb := b.isLt
  rw [show alu .sub a b = a - b from rfl, BitVec.toNat_sub]
  omega

theorem alu_xor_getLsbD (k : Nat) : (alu .xor a b).getLsbD k = Bool.xor (a.getLsbD k) (b.getLsbD k) := BitVec.getLsbD_xor

theorem alu_or_getLsbD (k : Nat) : (alu .or a b).getLsbD k = (a.getLsbD k || b.getLsbD k) := BitVec.getLsbD_or

theorem alu_and_getLsbD (k : Nat) : (alu .and a b).getLsbD k = (a.getLsbD k && b.getLsbD k) := BitVec.getLsbD_and

end

/-! ## The statements -/

/-- Settles O11: both write back an ALU function that wraps at 2^32. -/
theorem addAndSubWrapSilently : Obligations.AddAndSubWrapSilently := by
  refine ⟨decodesAs_R (op := .add) (f3 := 0b000) (f7 := 0b0000000) rfl rfl,
    decodesAs_R (op := .sub) (f3 := 0b000) (f7 := 0b0100000) rfl rfl, fun rd rs1 rs2 s => ⟨?_, ?_⟩⟩
  · exact exec_computes_and rfl (alu_add_toNat _ _)
  · exact exec_computes_and rfl (alu_sub_toNat _ _)

/-- Settles O12: each writes back an ALU function that acts on every bit alone. -/
theorem xorOrAndActBitByBit : Obligations.XorOrAndActBitByBit := by
  refine ⟨decodesAs_R (op := .xor) (f3 := 0b100) (f7 := 0b0000000) rfl rfl,
    decodesAs_R (op := .or) (f3 := 0b110) (f7 := 0b0000000) rfl rfl,
    decodesAs_R (op := .and) (f3 := 0b111) (f7 := 0b0000000) rfl rfl, fun rd rs1 rs2 s => ⟨?_, ?_, ?_⟩⟩
  · exact exec_computes_and rfl fun k _ => alu_xor_getLsbD _ _ k
  · exact exec_computes_and rfl fun k _ => alu_or_getLsbD _ _ k
  · exact exec_computes_and rfl fun k _ => alu_and_getLsbD _ _ k

/-- Settles O13: each writes back an ALU shift, whose amount is its second operand modulo 32. -/
theorem registerShiftsUseLowFiveBits : Obligations.RegisterShiftsUseLowFiveBits := by
  refine ⟨decodesAs_R (op := .sll) (f3 := 0b001) (f7 := 0b0000000) rfl rfl,
    decodesAs_R (op := .srl) (f3 := 0b101) (f7 := 0b0000000) rfl rfl,
    decodesAs_R (op := .sra) (f3 := 0b101) (f7 := 0b0100000) rfl rfl, fun rd rs1 rs2 s => ?_⟩
  rw [← shiftAmount_eq]
  refine ⟨?_, ?_, ?_⟩
  · exact exec_computes_and rfl (alu_sll_toNat _ _)
  · exact exec_computes_and rfl (alu_srl_toNat _ _)
  · exact exec_computes_and rfl (alu_sra_toInt _ _)

/-- Settles O14: each writes back the truth value of its comparison. -/
theorem setLessThanWritesOneOrZero : Obligations.SetLessThanWritesOneOrZero := by
  refine ⟨decodesAs_R (op := .slt) (f3 := 0b010) (f7 := 0b0000000) rfl rfl,
    decodesAs_R (op := .sltu) (f3 := 0b011) (f7 := 0b0000000) rfl rfl, fun rd rs1 rs2 s => ⟨?_, ?_⟩⟩
  · rw [← alu_slt]
    exact exec_computes rfl
  · rw [← alu_sltu]
    exact exec_computes rfl

end Sys2Proof.Machine
end

section
/-! PROOFS, family 43_i_type. The nine register-immediate instructions: the row of each decodes to it, and its meaning writes back
one ALU function of the source register and the immediate. -/

namespace Sys2Proof.Machine

/-! ## The immediate as second operand -/

section
variable (a : Word) (imm : BitVec 12)

/-- Adding the I immediate is adding its signed value modulo 2^32 (R115). -/
theorem alu_add_immOperand_toNat :
    ((alu .add a (immOperand imm)).toNat : Int) = ((a.toNat : Int) + imm.toInt) % 2 ^ 32 := by
  rw [alu_add_toNat, immOperand, immIOf_toNat, toInt_eq_ite_half imm]
  split_ifs <;> omega

theorem alu_slt_immOperand : alu .slt a (immOperand imm) = if a.toInt < imm.toInt then 1 else 0 :=
  (alu_slt a (immIOf imm)).trans (by rw [immIOf_toInt])

/-- In mode `zext` the operand of SLTIU is the raw field (R123). -/
theorem sltiuOperand_zext_toNat : (sltiuOperand .zext imm).toNat = imm.toNat :=
  BitVec.toNat_setWidth_of_le (by decide)

theorem sltiuOperand_sext_toNat : (sltiuOperand .sext imm).toNat =
    if imm.toNat < 0x800 then imm.toNat else imm.toNat + 0xFFFFF000 := immIOf_toNat imm

end

/-- An immediate whose sign bit is clear is the same operand of SLTIU in either mode (R123). -/
theorem sltiuOperand_zext_eq_sext {imm : BitVec 12} (h : imm.toNat < 0x800) :
    sltiuOperand .zext imm = sltiuOperand .sext imm :=
  BitVec.eq_of_toNat_eq (by rw [sltiuOperand_zext_toNat, sltiuOperand_sext_toNat, if_pos h])

/-! ## The words of the immediate shifts -/

/-- A word dispatched to an immediate shift decodes to it with w[31:25] and w[24:20] as the two parts of the immediate (R58). -/
theorem decode_of_dispatch_shiftI {w : Word} {op : Op} (mk : Reg → Reg → BitVec 7 → BitVec 5 → Instr)
    (hop : dispatch (describe w) = op)
    (hmk : ∀ d, op.instr d = mk d.rd d.rs1 (d.imm12.extractLsb 11 5) (d.imm12.extractLsb 4 0)) :
    decode w = mk (rdOf w) (rs1Of w) (immHiOf w) (shamtOf w) := by
  rw [decode, hop, hmk]
  exact congrArg₂ (mk (rdOf w) (rs1Of w)) (immHi_eq w) (shamt_eq w)

/-- With funct3 101 and a w[31:25] other than 0 the dispatcher selects SRAI (R62, R121). -/
theorem dispatch_srai {w : Word} (hw : w &&& 0x0000707F = 0x00005013) (hhi : w &&& 0xFE000000 ≠ 0) :
    dispatch (describe w) = .srai := by
  have hne : extractBits w 31 25 ≠ 0 := fun hzero =>
    hhi (BitVec.eq_of_toNat_eq ((mask_immHi_toNat w).trans (by rw [hzero]; rfl)))
  exact (dispatch_of_maskI hw rfl rfl).trans (if_neg hne)

/-! ## The statements -/

/-- Settles O15: the write-back of a sum modulo 2^32. -/
theorem addiAddsSignExtendedImmediate : Obligations.AddiAddsSignExtendedImmediate := by
  refine ⟨decodesAs_I (op := .addi) (f3 := 0b000) rfl fun _ => rfl, fun rd rs1 imm s => ?_⟩
  exact exec_computes_and rfl (alu_add_immOperand_toNat _ _)

/-- Settles O16: each acts on every bit alone, and bit k of the second operand is bit min(k, 11) of the field. -/
theorem logicImmediatesSignExtend : Obligations.LogicImmediatesSignExtend := by
  refine ⟨decodesAs_I (op := .xori) (f3 := 0b100) rfl fun _ => rfl, decodesAs_I (op := .ori) (f3 := 0b110) rfl fun _ => rfl,
    decodesAs_I (op := .andi) (f3 := 0b111) rfl fun _ => rfl, fun rd rs1 imm s => ⟨?_, ?_, ?_⟩⟩
  · exact exec_computes_and rfl fun k hk => by rw [alu_xor_getLsbD, immOperand, immIOf_getLsbD imm k hk]
  · exact exec_computes_and rfl fun k hk => by rw [alu_or_getLsbD, immOperand, immIOf_getLsbD imm k hk]
  · exact exec_computes_and rfl fun k hk => by rw [alu_and_getLsbD, immOperand, immIOf_getLsbD imm k hk]

/-- Settles O17: w[31:25] decides the dispatch of funct3 101 alone, and the amount of the ALU shift is the field w[24:20]. -/
theorem immediateShiftsUseShamtField : Obligations.ImmediateShiftsUseShamtField := by
  refine ⟨fun w hw => decode_of_dispatch_shiftI .slli (dispatch_of_maskI hw rfl rfl) fun _ => rfl,
    fun w hw => decode_of_dispatch_shiftI (fun rd rs1 _ shamt => .srli rd rs1 shamt) (dispatch_of_maskR hw rfl) fun _ => rfl,
    fun w hw hhi => decode_of_dispatch_shiftI .srai (dispatch_srai hw hhi) fun _ => rfl, fun rd rs1 immHi shamt s => ?_⟩
  rw [← shiftAmount_shamt]
  refine ⟨?_, ?_, ?_⟩
  · exact exec_computes_and rfl (alu_sll_toNat _ _)
  · exact exec_computes_and rfl (alu_srl_toNat _ _)
  · exact exec_computes_and rfl (alu_sra_toInt _ _)

/-- Settles O18: the write-back of the truth value of the signed comparison. -/
theorem sltiComparesSigned : Obligations.SltiComparesSigned := by
  refine ⟨decodesAs_I (op := .slti) (f3 := 0b010) rfl fun _ => rfl, fun rd rs1 imm s => ?_⟩
  rw [← alu_slt_immOperand]
  exact exec_computes rfl

/-- Settles O19: in either mode the write-back of the truth value of the comparison with the mode's operand, and below 0x800 the
operands are one. -/
theorem sltiuComparesUnsignedInEitherMode : Obligations.SltiuComparesUnsignedInEitherMode := by
  refine ⟨decodesAs_I (op := .sltiu) (f3 := 0b011) rfl fun _ => rfl,
    fun rd rs1 imm s => ⟨?sext, rfl, ?zext, fun h => ?agree⟩⟩
  case sext =>
    rw [← sltiuOperand_sext_toNat, ← alu_sltu]
    exact exec_computes rfl
  case zext =>
    rw [← sltiuOperand_zext_toNat, ← alu_sltu]
    exact writeBack_computes s rd _
  case agree => simp only [execSltiuIn, sltiuOperand_zext_eq_sext h]

end Sys2Proof.Machine
end

section
/-! PROOFS, family 44_u_type. LUI writes back its upper immediate; with the ADDI that follows it, any constant is the sum of an upper
part and a sign-extended lower part. -/

namespace Sys2Proof.Machine

/-! ## LUI -/

/-- The row of LUI (R54, R63). -/
theorem decodesAs_lui : DecodesAs 0x0000007F 0x00000037 (fun w => .lui (rdOf w) (extractBits w 31 12)) :=
  fun w h => decode_of_opcodeU ((mask_opcode w 0x37 (by decide)).1 h)

/-- LUI writes back its immediate shifted into place, whatever the registers hold (R125). -/
theorem exec_lui (rd : Reg) (imm20 : BitVec 20) (s : State) : exec (.lui rd imm20) s = writeBack rd (immUOf imm20) s := rfl

/-- Settles O20: the write-back of the upper immediate, which of a LUI word is the word without its low 12 bits. -/
theorem luiLoadsUpperImmediate : Obligations.LuiLoadsUpperImmediate := by
  refine ⟨decodesAs_lui, fun rd imm20 s => exec_computes_and (exec_lui rd imm20 s) (immUOf_toNat imm20), fun w s h => ?_⟩
  rw [decodesAs_lui w h, ← immUOf_extractBits]
  exact exec_computes (exec_lui _ _ s)

/-! ## A constant in two parts -/

/-- The field C[11:0] read as an I immediate is the lower part of R126. -/
theorem immIOf_extractBits_low (c : Word) : immIOf (extractBits c 11 0) = signExtendBits c 12 := by
  rw [immIOf_eq]
  exact congrArg (BitVec.signExtend 32) (BitVec.eq_of_toNat_eq (by rw [extractBits_toNat, BitVec.toNat_setWidth]; omega))

/-- The lower part is C[11:0], less 2^12 modulo 2^32 when bit 11 is set (R71). -/
theorem signExtendBits_12_toNat (c : Word) : (signExtendBits c 12).toNat =
    if c.toNat % 2 ^ 12 < 0x800 then c.toNat % 2 ^ 12 else c.toNat % 2 ^ 12 + 0xFFFFF000 := by
  rw [← immIOf_extractBits_low, immIOf_toNat, extractBits_toNat, Nat.pow_zero, Nat.div_one]

/-- Taking the lower part away clears C[11:0] and, when bit 11 is set, adds 1 to C[31:12] modulo 2^20. -/
theorem sub_signExtendBits_12_toNat (c : Word) : (c - signExtendBits c 12).toNat =
    (c.toNat / 2 ^ 12 + if c.toNat % 2 ^ 12 < 0x800 then 0 else 1) % 2 ^ 20 * 2 ^ 12 := by
  have hc := c.isLt
  rw [BitVec.toNat_sub, signExtendBits_12_toNat]
  split_ifs <;> omega

/-- The upper part of R126 as a number. -/
theorem upperPart_toNat (c : Word) : (extractBits (c - signExtendBits c 12) 31 12).toNat =
    (c.toNat / 2 ^ 12 + if c.toNat % 2 ^ 12 < 0x800 then 0 else 1) % 2 ^ 20 := by
  rw [extractBits_top_toNat _ (by decide), sub_signExtendBits_12_toNat, Nat.mul_div_cancel _ (by decide)]

/-- Nothing of the upper part is lost in its 20-bit field: the U immediate gives it back (R126). -/
theorem immUOf_upperPart (c : Word) : immUOf (extractBits (c - signExtendBits c 12) 31 12) = c - signExtendBits c 12 :=
  BitVec.eq_of_toNat_eq (by rw [immUOf_toNat, upperPart_toNat, sub_signExtendBits_12_toNat])

/-- Bit 11 is the sign bit of C[11:0]. -/
theorem getLsbD_11_eq_false_iff (c : Word) : c.getLsbD 11 = false ↔ c.toNat % 2 ^ 12 < 0x800 := by
  rw [BitVec.getLsbD, Nat.testBit_eq_decide_div_mod_eq, decide_eq_false_iff_not]
  omega

/-- Settles O21: LUI leaves C less the lower part in `x[rd]`, and ADDI adds the lower part to it. -/
theorem luiThenAddiBuildsConstant : Obligations.LuiThenAddiBuildsConstant := by
  intro c rd s hrd
  obtain ⟨t, hlui, ⟨hupper, -⟩, -⟩ := exec_computes (exec_lui rd (extractBits (c - signExtendBits c 12) 31 12) s)
  obtain ⟨u, haddi, ⟨hsum, -⟩, -⟩ := exec_computes (i := .addi rd rd (extractBits c 11 0)) (s := t) rfl
  refine ⟨t, u, hlui, haddi, ?constant, ?upper⟩
  case constant =>
    calc u.readReg rd
        = t.readReg rd + immIOf (extractBits c 11 0) := hsum hrd
      _ = c - signExtendBits c 12 + signExtendBits c 12 := by rw [hupper hrd, immUOf_upperPart, immIOf_extractBits_low]
      _ = c := BitVec.sub_add_cancel _ _
  case upper =>
    rw [upperPart_toNat, ← ite_not]
    simp only [← getLsbD_11_eq_false_iff, Bool.not_eq_false]

end Sys2Proof.Machine
end

section
/-! PROOFS, family 45_system. The system call: what the call number makes of it, what each of its ends leaves, and the statements
about its services and about the trace. -/

namespace Sys2Proof.Machine

/-! ## The string read -/

/-- Call 4 finds the bytes other than zero that stand before a zero byte inside memory (R132). -/
theorem readString_eq_some {m : Memory} {a : Word} {bytes : List Byte} (hin : a.toNat + bytes.length < Config.memSize)
    (hbytes : ∀ k (h : k < bytes.length), m.read (a.toNat + k) = bytes[k] ∧ bytes[k] ≠ 0)
    (hzero : m.read (a.toNat + bytes.length) = 0) : readString m a = some bytes :=
  stringFrom_eq_some (by omega) hbytes hzero

/-- Where no zero byte stands from the address on inside memory, call 4 finds no string (R132, R42). -/
theorem readString_eq_none {m : Memory} {a : Word} (h : ∀ p, a.toNat ≤ p → p < Config.memSize → m.read p ≠ 0) :
    readString m a = none :=
  stringFrom_eq_none fun p hlow hhigh => h p hlow (by omega)

/-! ## The services -/

theorem syscall_four_of_some {mem : Memory} {pc a : Word} {bytes : List Byte} (h : readString mem a = some bytes) :
    syscall mem pc 4 a = (some (.emit (.str bytes)), .continues) :=
  show printString mem pc a = _ by rw [printString, h]

theorem syscall_four_of_none {mem : Memory} {pc a : Word} (h : readString mem a = none) :
    syscall mem pc 4 a = (some (.diag (.stringOutOfRange a pc)), .faults) :=
  show printString mem pc a = _ by rw [printString, h]

/-- A call number is compared as a 32-bit number, so one that is not listed selects no service (R128, R139). -/
theorem serviceOf_eq_unknown {n : Word} (h : n.toNat ∉ [1, 2, 4, 10, 11, 34, 35, 36, 93]) : serviceOf n = .unknown := by
  simp only [List.mem_cons, List.not_mem_nil, or_false, not_or] at h
  simp [serviceOf, ← BitVec.toNat_inj, h]

theorem syscall_of_unknown {mem : Memory} {pc n a : Word} (h : serviceOf n = .unknown) :
    syscall mem pc n a = (none, .continues) := by
  rw [syscall, h]

/-- The number of a Float payload is the signed or the unsigned one (R131). -/
theorem number_float_cases (v : Word) :
    (Emission.float v).number = some v.toInt ∨ (Emission.float v).number = some (v.toNat : Int) := by
  rw [Emission.number, floatSource]
  cases Config.floatSrcSigned
  · exact .inr rfl
  · exact .inl rfl

/-! ## The ends of a system call -/

section
variable (u : BitVec 25) {s : State} {n : Word}

/-- A call that emits or reports an event and continues appends that one event and goes on. -/
theorem exec_ecall_reports {ev : Event} (hn : s.readReg 17 = n)
    (hcall : syscall s.mem s.pc n (s.readReg 10) = (some ev, .continues)) :
    ∃ t, exec (.ecall u) s = .next t ∧ Reports [ev] s t := by
  rw [exec_ecall, hn, hcall]
  exact ⟨_, rfl, finish_record_reports s ev⟩

theorem exec_ecall_reports_nothing (hn : s.readReg 17 = n)
    (hcall : syscall s.mem s.pc n (s.readReg 10) = (none, .continues)) :
    ∃ t, exec (.ecall u) s = .next t ∧ Reports [] s t := by
  rw [exec_ecall, hn, hcall]
  exact ⟨_, rfl, finish_reports_nothing s⟩

theorem exec_ecall_exits {cause : HaltCause} {code : Word} (hn : s.readReg 17 = n)
    (hcall : syscall s.mem s.pc n (s.readReg 10) = (none, .exits cause code)) :
    ∃ t, exec (.ecall u) s = .next t ∧ Exits cause code s t := by
  rw [exec_ecall, hn, hcall]
  exact ⟨_, rfl, finish_exits_spec s cause code⟩

/-- A call that faults ends as its event and the string fault do. -/
theorem exec_ecall_faults {ev : Event} (hn : s.readReg 17 = n)
    (hcall : syscall s.mem s.pc n (s.readReg 10) = (some ev, .faults)) :
    exec (.ecall u) s = .next ((s.record ev).finish .faults) := by
  rw [exec_ecall, hn, hcall]
  rfl

/-- No service writes a register (R140). -/
theorem exec_ecall_writesNone {t : State} (h : exec (.ecall u) s = .next t) : WritesNone s t := by
  obtain rfl := Host.Outcome.next.inj ((exec_ecall u s).symm.trans h)
  exact ⟨fun r => by rw [State.readReg_finish, State.readReg_recordOpt], State.finish_x0 _ _⟩

end

/-! ## The trace -/

/-- Every completed execution appends at most one event: only the system call and the unimplemented words have one (R141, R152). -/
theorem exec_next_trace {i : Instr} {s t : State} (h : exec i s = .next t) :
    ∃ es : List Event, t.trace = s.trace ++ es ∧ es.length ≤ 1 := by
  rcases exec_next_cases h with ⟨-, -, ⟨-, htrace, -⟩, -⟩ | ⟨es, hlen, ⟨-, htrace, -⟩, -⟩ |
    ⟨-, ⟨-, htrace, -⟩ | ⟨-, htrace, -⟩ | rfl⟩
  · exact ⟨[], by simp [htrace], by simp⟩
  · exact ⟨es, htrace, hlen⟩
  · exact ⟨[], by simp [htrace], by simp⟩
  · exact ⟨[], by simp [htrace], by simp⟩
  · exact ⟨_, State.finish_trace _ _, by simp⟩

/-! ## The statements -/

/-- Settles O23: each of the six numbers selects a service that emits one event and continues. -/
theorem printCallsEmitOneEvent : Obligations.PrintCallsEmitOneEvent := by
  refine fun u s => ⟨fun h => exec_ecall_reports u h rfl, fun h => exec_ecall_reports u h rfl, fun h => ?char,
    fun h => exec_ecall_reports u h rfl, fun h => exec_ecall_reports u h rfl, fun h => exec_ecall_reports u h rfl,
    fun v => ⟨rfl, rfl, rfl, rfl, number_float_cases v⟩⟩
  case char =>
    obtain ⟨t, hexec, hreports⟩ := exec_ecall_reports u h rfl
    exact ⟨t, _, hexec, hreports, by simp [extractBits_toNat]⟩

/-- Settles O24: the string read either finds the bytes before the first zero byte or runs out of memory. -/
theorem printStringEmitsOrFaults : Obligations.PrintStringEmitsOrFaults := by
  refine fun u s hn => ⟨fun bytes hin hbytes hzero => ?emits, fun hnone => ?faults⟩
  case emits => exact exec_ecall_reports u hn (syscall_four_of_some (readString_eq_some hin hbytes hzero))
  case faults =>
    have hexec := exec_ecall_faults u hn (syscall_four_of_none (readString_eq_none hnone))
    exact ⟨_, hexec, exec_ecall_writesNone u hexec, State.finish_trace _ _, rfl, rfl, rfl, ⟨fun _ => rfl, rfl, rfl⟩, rfl⟩

/-- Settles O25: either number selects a service that ends the run with its cause and code. -/
theorem exitCallsHaltTheCore : Obligations.ExitCallsHaltTheCore :=
  fun u _ => ⟨fun h => exec_ecall_exits u h rfl, fun h => exec_ecall_exits u h rfl⟩

/-- Settles O26: an unlisted number selects no service. -/
theorem unknownCallIsSilentNoOp : Obligations.UnknownCallIsSilentNoOp :=
  fun u _ h => exec_ecall_reports_nothing u rfl (syscall_of_unknown (serviceOf_eq_unknown h))

/-- Settles O27: the call completes, and what every execution leaves at the step boundary says how it ends. -/
theorem ecallWritesNoRegister : Obligations.EcallWritesNoRegister := by
  intro u s
  obtain ⟨t, hexec⟩ := everyInstructionCompletes (.ecall u) s
  obtain ⟨-, himg, hend⟩ := exec_next_boundary hexec
  refine ⟨t, hexec, exec_ecall_writesNone u hexec, himg, hend.imp_right ?_⟩
  rintro ⟨hpc, ⟨hrun, hcause, -⟩ | ⟨hrun, hcause, -⟩ | hfault⟩
  · exact ⟨hpc, hrun, .inl hcause⟩
  · exact ⟨hpc, hrun, .inr (.inl hcause)⟩
  · obtain ⟨hrun, hcause⟩ := State.faulted_iff.1 hfault
    exact ⟨hpc, hrun, .inr (.inr hcause)⟩

/-- Settles O35: a step is the execution of its word. -/
theorem traceGrowsByAtMostOneEvent : Obligations.TraceGrowsByAtMostOneEvent := by
  intro s t h
  obtain ⟨-, w, -, hexec⟩ := step_next_cases h
  exact exec_next_trace hexec

end Sys2Proof.Machine
end

section
/-! PROOFS, family 46_unimplemented. The words of the two "otherwise" rows: each is well-formed as the instruction that keeps it whole,
so that it decodes to that instruction, whose meaning records one diagnostic and goes on. -/

namespace Sys2Proof.Machine

/-- An operation that records one event and continues reports it, with the whole frame (R144). -/
theorem exec_reports {i : Instr} {s : State} {ev : Event} (h : exec i s = .next ((s.record ev).finish .continues)) :
    ∃ t, exec i s = .next t ∧ Reports [ev] s t :=
  ⟨_, h, finish_record_reports s ev⟩

/-- The match of the R row of a (funct3, funct7) pair: the R layout with every operand 0 (R61, R63). -/
def matchOfPair (pair : BitVec 3 × BitVec 7) : Word := encodeR pair.2 0 0 pair.1 0

/-- The R mask makes of a word of opcode 0110011 the match of its pair. -/
theorem maskR_eq_matchOfPair {w : Word} (ho : (extractBits w 6 0).toNat = 0x33) :
    w &&& 0xFE00707F = matchOfPair (extractBits w 14 12, extractBits w 31 25) := by
  apply BitVec.eq_of_toNat_eq
  rw [mask_funct7_toNat, matchOfPair, encodeR_toNat, ho]
  simp only [Fin.val_zero, Nat.zero_mul, Nat.add_zero]

/-- The matches of the implemented pairs are those of the ten R rows (R61). -/
theorem map_matchOfPair_implementedPairs : implementedPairs.map matchOfPair =
    [0x00000033#32, 0x40000033#32, 0x00004033#32, 0x00006033#32, 0x00007033#32, 0x00001033#32, 0x00005033#32, 0x40005033#32,
      0x00002033#32, 0x00003033#32] := by decide

/-- A word of opcode 0110011 whose pair is not implemented is a well-formed `unimpFunct` (R61, R143). -/
theorem wellFormed_unimpFunct {w : Word} (ho : (extractBits w 6 0).toNat = 0x33)
    (hpair : (extractBits w 14 12, extractBits w 31 25) ∉ implementedPairs) : (Instr.unimpFunct w).wellFormed = true := by
  have hopcode : extractBits w 6 0 = 0b0110011#7 := BitVec.eq_of_toNat_eq ho
  have hcontains : implementedPairs.contains (extractBits w 14 12, extractBits w 31 25) = false :=
    (List.contains_eq_mem _ _).trans (decide_eq_false hpair)
  exact Bool.and_eq_true_iff.2 ⟨beq_iff_eq.2 hopcode, congrArg not hcontains⟩

/-- Settles O28: the word is a well-formed `unimpOpcode`, which encodes to the word itself and records one diagnostic. -/
theorem unimplementedOpcodeIsReported : Obligations.UnimplementedOpcodeIsReported := by
  refine ⟨fun w hR hI hU hS => ?decodes, fun w s => exec_reports rfl⟩
  case decodes =>
    have hne (c : Word) (hc : c.toNat < 2 ^ 7) (h : w &&& 0x7F ≠ c) : (extractBits w 6 0).toNat ≠ c.toNat :=
      mt (mask_opcode w c hc).2 h
    exact decode_encode (i := .unimpOpcode w) (wellFormed_unimpOpcode (hne 0x33 (by decide) hR) (hne 0x13 (by decide) hI)
      (hne 0x37 (by decide) hU) (hne 0x73 (by decide) hS))

/-- Settles O29: an implemented pair would make the masked word the match of an R row, so the word is a well-formed `unimpFunct`,
which encodes to the word itself and records one diagnostic. -/
theorem unimplementedFunctionIsReported : Obligations.UnimplementedFunctionIsReported := by
  refine ⟨fun w hopcode hmatch => ?decodes, fun w s => exec_reports rfl⟩
  case decodes =>
    have ho : (extractBits w 6 0).toNat = 0x33 := (mask_opcode w 0x33 (by decide)).1 hopcode
    rw [maskR_eq_matchOfPair ho, ← map_matchOfPair_implementedPairs] at hmatch
    exact decode_encode (i := .unimpFunct w) (wellFormed_unimpFunct ho (mt List.mem_map_of_mem hmatch))

end Sys2Proof.Machine
end

section
/-! PROOFS, family 70_reset_and_hazards. The result dump: a word's digits are its right shifts cut to four bits, and in a
concatenation of blocks of one length the position says which block and which place in it. -/

namespace Sys2Proof.Machine

/-- The digit at place `k` from the top is the word shifted right by `28 - 4k`, cut to four bits. -/
theorem hexDigits_eq_map_range (v : Word) :
    hexDigits v = (List.range 8).map fun k => BitVec.ofNat 4 (v.toNat >>> (28 - 4 * k)) := rfl

@[simp] theorem hexDigits_length (v : Word) : (hexDigits v).length = 8 := rfl

theorem hexDigits_getElem?_toNat (v : Word) {k : Nat} (hk : k < 8) :
    (hexDigits v)[k]?.map BitVec.toNat = some (v.toNat / 2 ^ (28 - 4 * k) % 16) := by
  rw [hexDigits_eq_map_range, List.getElem?_map, List.getElem?_range hk, Option.map_some, Option.map_some,
    BitVec.toNat_ofNat, Nat.shiftRight_eq_div_pow]

/-- Among blocks of one length `n`, position `n * i + k` with `k < n` is place `k` of block `i`. -/
theorem getElem?_flatMap_of_length_eq {α β : Type} {f : α → List β} {n k : Nat} (hf : ∀ a, (f a).length = n) (hk : k < n)
    (l : List α) (i : Nat) : (l.flatMap f)[n * i + k]? = l[i]?.bind fun a => (f a)[k]? := by
  induction l generalizing i with
  | nil => rfl
  | cons a l ih =>
    rw [List.flatMap_cons]
    cases i with
    | zero => rw [Nat.mul_zero, Nat.zero_add, List.getElem?_append_left (hk.trans_eq (hf a).symm)]; rfl
    | succ i =>
      have hpos : n * (i + 1) + k = (f a).length + (n * i + k) := by rw [hf, Nat.mul_succ]; omega
      rw [hpos, List.getElem?_append_right (Nat.le_add_right _ _), Nat.add_sub_cancel_left, ih, List.getElem?_cons_succ]

@[simp] theorem State.dumpDigits_length (s : State) : s.dumpDigits.length = 256 := by
  simp [State.dumpDigits, List.length_flatMap]

/-- Place `8r + k` of the dump is place `k` of register `r`'s digits. -/
theorem State.dumpDigits_getElem? (s : State) (r : Reg) {k : Nat} (hk : k < 8) :
    s.dumpDigits[8 * r.val + k]? = (hexDigits (s.readReg r))[k]? := by
  have hr : (List.finRange 32)[r.val]? = some r := by simp
  rw [State.dumpDigits, getElem?_flatMap_of_length_eq (fun r => hexDigits_length (s.readReg r)) hk, hr, Option.bind_some]

/-- Settles O48: the dump's place `8r + k` is place `k` of the digits of `x[r]`, which are its shifts. -/
theorem dumpShowsEveryRegister : Obligations.DumpShowsEveryRegister :=
  fun s => ⟨s.dumpDigits_length, fun r _ hk => (s.dumpDigits_getElem? r hk).symm ▸ hexDigits_getElem?_toNat _ hk⟩

end Sys2Proof.Machine
end
